-- ==== Sys2Proof/Word.lean ====
section
/-! DEFINITION. The word types of the engine: bytes, 64-bit lanes, 16-bit command words and the files of lanes (00_scope.md R10, 10_state.md R21). -/

namespace Sys2Proof

/-- One 8-bit byte: a message byte, a state byte, a digest byte or a response (20_memory.md R42). -/
abbrev Byte := BitVec 8

/-- One lane, an unsigned 64-bit word whose bit 0 is the least significant (R10, R80). -/
abbrev Lane := BitVec 64

/-- One command word as it stands on `cmd_word` (30_encoding.md R60). -/
abbrev CommandWord := BitVec 16

/-- A file of 25 lanes in the order `lane[i]`, `i = x + 5y` (R12, R21). -/
abbrev Lanes := Vector Lane 25

/-- Five lanes, one for each column `x`: the θ column values `C` and `D` (R31). -/
abbrev Columns := Vector Lane 5

/-- A lane coordinate, a column `x` or a row `y` in 0..4.
Addition and multiplication of coordinates are modulo 5, as R11 asks of every coordinate expression. -/
abbrev Coord := Fin 5

end Sys2Proof
end

