-- ==== Sys2Proof/Syntax.lean ====
section
/-! DEFINITION. The commands of the engine, one constructor for each row of spec/opcode_table.json, and the assembler's source lines of 30_encoding.md R67 and R68. -/

namespace Sys2Proof

/-- A command of the opcode map (30_encoding.md R62).
The operands have the widths of R61, so that no operand of a command is out of its range. -/
inductive Instr where
  /-- NOP (R121). -/
  | nop
  /-- INIT (R122). -/
  | init
  /-- ABSORB b (R123): `b` is the message byte. -/
  | absorb (b : Byte)
  /-- FINAL (R125). -/
  | final
  /-- RDIG i (R127): `i` is the digest byte's index, 0..31. -/
  | rdig (i : BitVec 5)
  /-- RSTAT (R128). -/
  | rstat
  /-- ROFF (R129). -/
  | roff
deriving DecidableEq, Repr

/-- A line of assembly source.
Its numbers are what the programmer wrote, in range or not: R67 makes an operand out of range an assembly error. -/
inductive Line where
  | nop
  | init
  | absorb (b : Nat)
  | final
  | rdig (i : Nat)
  | rstat
  | roff
  /-- `.word w`: a word placed as it is, the only way to write an illegal one (R67). -/
  | word (w : Nat)
  /-- `ABSORBS` of a list of bytes, or of a text's ASCII bytes (R68). -/
  | absorbs (bs : List Nat)
  /-- `RDIGEST` (R68). -/
  | rdigest
  /-- `HASH m` (R68). -/
  | hash (m : List Nat)
  /-- `ZEROS n` (R68). -/
  | zeros (n : Nat)
deriving DecidableEq, Repr

end Sys2Proof
end

