-- ==== Sys2Proof/WellFormed.lean ====
section
/-! DEFINITION. The checks on source lines (30_encoding.md R67). A command of `Instr` needs none: its operands' types are their ranges (R61). The legality of a command WORD, R63, stands in Decode.lean. -/

namespace Sys2Proof

/-- R67: a byte operand is in 0..255. -/
def byteInRange (b : Nat) : Bool := decide (b < 256)

/-- R67: a digest index is in 0..31. -/
def indexInRange (i : Nat) : Bool := decide (i < 32)

/-- A word placed by `.word` is one of the 65,536 words (R65, R66). -/
def wordInRange (w : Nat) : Bool := decide (w < 65536)

/-- R67: a line is well formed when none of its operands is out of range. -/
def Line.wellFormed : Line → Bool
  | .nop | .init | .final | .rstat | .roff | .rdigest => true
  | .absorb b => byteInRange b
  | .rdig i => indexInRange i
  | .word w => wordInRange w
  | .absorbs bs => bs.all byteInRange
  | .hash m => m.all byteInRange
  | .zeros _ => true

end Sys2Proof
end

