-- ==== Sys2Proof/Decode.lean ====
section
/-! DEFINITION. Decoding and encoding of command words (30_encoding.md R60 to R66): the fields, the opcode map, the legality predicate, the decoder, total on all 65,536 words and rejecting by name, and the encoder. -/

namespace Sys2Proof

/-- `op = w[15:12]` (R60). -/
def opField (w : CommandWord) : BitVec 4 := w.extractLsb' 12 4

/-- `rsv = w[11:8]` (R60). -/
def rsvField (w : CommandWord) : BitVec 4 := w.extractLsb' 8 4

/-- `data = w[7:0]` (R60): ABSORB's byte operand, taken as it is (R61). -/
def dataField (w : CommandWord) : Byte := w.extractLsb' 0 8

/-- `w[4:0]`: RDIG's index operand (R61). -/
def indexField (w : CommandWord) : BitVec 5 := w.extractLsb' 0 5

/-- One row of the opcode map of R62. -/
structure Row where
  mnemonic : String
  pattern : CommandWord
  mask : CommandWord
deriving DecidableEq, Repr

/-- R62: "A word `w` is the command of a row when `(w AND mask) = match`." -/
def Row.selects (r : Row) (w : CommandWord) : Bool := w &&& r.mask == r.pattern

def rowNop : Row := ⟨"NOP", 0x0000#16, 0xFFFF#16⟩
def rowInit : Row := ⟨"INIT", 0x1000#16, 0xFFFF#16⟩
def rowAbsorb : Row := ⟨"ABSORB", 0x2000#16, 0xFF00#16⟩
def rowFinal : Row := ⟨"FINAL", 0x3000#16, 0xFFFF#16⟩
def rowRdig : Row := ⟨"RDIG", 0x4000#16, 0xFFE0#16⟩
def rowRstat : Row := ⟨"RSTAT", 0x5000#16, 0xFFFF#16⟩
def rowRoff : Row := ⟨"ROFF", 0x6000#16, 0xFFFF#16⟩

/-- The opcode map of R62, in its order. -/
def opcodeMap : List Row := [rowNop, rowInit, rowAbsorb, rowFinal, rowRdig, rowRstat, rowRoff]

/-- Why a word is illegal: the four cases R64 lists.
R64 gives them no priority and the engine records none of them (every one is ECODE 4): the order below is the model's (log entry 10). -/
inductive IllegalReason where
  /-- "opcodes 0x7..0xF" -/
  | reservedOpcode
  /-- "any nonzero `rsv` field" -/
  | reservedField
  /-- "an RDIG with `w[7:5] ≠ 0`, an index of 32 or more" -/
  | indexOutOfRange
  /-- "nonzero `data` on NOP, INIT, FINAL, RSTAT or ROFF" -/
  | strayData
deriving DecidableEq, Repr

/-- The name of an illegal word's fault (R64). -/
def illegalReason (w : CommandWord) : IllegalReason :=
  if 7 ≤ (opField w).toNat then .reservedOpcode
  else if rsvField w ≠ 0 then .reservedField
  else if opField w = 4 then .indexOutOfRange
  else .strayData

/-- The decoder of R65: one of the seven commands with its operand, or ILLEGAL with a reason. -/
def decode (w : CommandWord) : Except IllegalReason Instr :=
  if rowNop.selects w then .ok .nop
  else if rowInit.selects w then .ok .init
  else if rowAbsorb.selects w then .ok (.absorb (dataField w))
  else if rowFinal.selects w then .ok .final
  else if rowRdig.selects w then .ok (.rdig (indexField w))
  else if rowRstat.selects w then .ok .rstat
  else if rowRoff.selects w then .ok .roff
  else .error (illegalReason w)

/-- The legality predicate of R63, clause by clause. -/
def legal (w : CommandWord) : Bool :=
  (opField w == 0x0 && w.extractLsb' 0 12 == 0) ||
  (opField w == 0x1 && w.extractLsb' 0 12 == 0) ||
  (opField w == 0x2 && rsvField w == 0) ||
  (opField w == 0x3 && w.extractLsb' 0 12 == 0) ||
  (opField w == 0x4 && w.extractLsb' 5 7 == 0) ||
  (opField w == 0x5 && w.extractLsb' 0 12 == 0) ||
  (opField w == 0x6 && w.extractLsb' 0 12 == 0)

/-- A word from its three fields (R60). -/
def wordOf (op rsv : BitVec 4) (data : Byte) : CommandWord := op ++ rsv ++ data

/-- The encoder: the word of each command, from the opcodes and operand places of R60 to R62. -/
def encode : Instr → CommandWord
  | .nop => wordOf 0x0 0 0
  | .init => wordOf 0x1 0 0
  | .absorb b => wordOf 0x2 0 b
  | .final => wordOf 0x3 0 0
  | .rdig i => wordOf 0x4 0 (i.zeroExtend 8)
  | .rstat => wordOf 0x5 0 0
  | .roff => wordOf 0x6 0 0

/-- The command word whose low `nbits` bits are those of `w`, every higher bit 0.
A command is one 16-bit word in one transfer (R66), so bit `n` of the opcode table is bit `n` of `cmd_word`. -/
def tableWord (nbits w : Nat) : CommandWord := BitVec.ofNat 16 (w % 2 ^ nbits)

/-- What the decoder reads from an instruction numbered as spec/opcode_table.json numbers it. -/
def decodeTableWord (nbits w : Nat) : Option Instr :=
  match decode (tableWord nbits w) with
  | .ok i => some i
  | .error _ => none

end Sys2Proof
end

