-- ==== Sys2Proof/Config.lean ====
section
/-! DEFINITION. What is fixed for the machine: the algorithm parameters of 00_scope.md R7, the implementation parameters of R9, and the free values of 93_implementation_defined.md U9. -/

namespace Sys2Proof.Config

/-- State size in bytes (R7). -/
abbrev stateBytes : Nat := 200

/-- Rate `r` in bytes (R7). -/
abbrev rateBytes : Nat := 136

/-- Capacity `c` in bytes (R7). -/
abbrev capacityBytes : Nat := 64

/-- Number of rounds `n_r` (R7). -/
abbrev roundCount : Nat := 24

/-- Bytes of the digest (R7). -/
abbrev digestBytes : Nat := 32

/-- Domain-separation byte (R7). -/
abbrev domainByte : Byte := 0x06#8

/-- Padding trailer (R7). -/
abbrev trailerByte : Byte := 0x80#8

/-- `ROUNDS_PER_CYCLE` of R9: timing only. -/
abbrev roundsPerCycle : Nat := 1

/-- `PERM_CYCLES` of R9: busy cycles of one permutation, timing only. -/
abbrev permCycles : Nat := 24

/-- FREE VALUE (log entry 2): a lane the spec leaves unspecified.
The model applies it to the counter `State.draws`, so that each unspecified lane is a fresh one.
It has no body: no proof can learn what it is (U9 "any value"). -/
opaque freeLane : Nat → Lane

end Sys2Proof.Config
end

