-- ==== Sys2Proof/Machine/LanePrimitives.lean ====
section
/-! DEFINITION. The lane arithmetic primitives of 40_lane_primitives.md R80 to R84 and the coordinates of lanes (00_scope.md R11, R12). -/

namespace Sys2Proof.Machine

/-- `a ⊕ b` (R81). -/
def laneXor (a b : Lane) : Lane := a ^^^ b

/-- `a ∧ b` (R82). -/
def laneAnd (a b : Lane) : Lane := a &&& b

/-- `¬a`, the complement of all 64 bits (R83). -/
def laneNot (a : Lane) : Lane := ~~~a

/-- `rotl64(a, r)` for `r` in 0..63 (R84), by its formula `(a << r) OR (a >> (64 - r))`, which is `a` at `r = 0`. -/
def rotl64 (a : Lane) (r : Nat) : Lane := a <<< r ||| a >>> (64 - r)

/-- `i = x + 5y`, the place of lane `(x, y)` (R12). -/
def laneIndex (x y : Coord) : Fin 25 := ⟨x.val + 5 * y.val, by omega⟩

/-- `A[x,y]` (R12). -/
def laneAt (A : Lanes) (x y : Coord) : Lane := A[laneIndex x y]

/-- The file whose lane at `(x, y)` is `f x y`: `lane[i] = f (i mod 5) (i div 5)` (R12). -/
def ofCoords (f : Coord → Coord → Lane) : Lanes :=
  Vector.ofFn fun i => f ⟨i.val % 5, by omega⟩ ⟨i.val / 5, by omega⟩

end Sys2Proof.Machine
end

