-- ==== Sys2Proof/Machine/Permutation.lean ====
section
/-! DEFINITION. The round mapper of 41_permutation.md: the tables RC and RHO with their generating rules, the step mappings θ, ρ, π, the fused ρ∘π, χ and ι, the round function and KeccakF. -/

namespace Sys2Proof.Machine

/-- The rows of R99's table as it prints them: `RC[ir]` on the left for `ir` in 0..11, `RC[ir + 12]` on the right. -/
def rcRows : Vector (Lane × Lane) 12 :=
  #v[(0x0000000000000001, 0x000000008000808B),
     (0x0000000000008082, 0x800000000000008B),
     (0x800000000000808A, 0x8000000000008089),
     (0x8000000080008000, 0x8000000000008003),
     (0x000000000000808B, 0x8000000000008002),
     (0x0000000080000001, 0x8000000000000080),
     (0x8000000080008081, 0x000000000000800A),
     (0x8000000000008009, 0x800000008000000A),
     (0x000000000000008A, 0x8000000080008081),
     (0x0000000000000088, 0x8000000000008080),
     (0x0000000080008009, 0x0000000080000001),
     (0x000000008000000A, 0x8000000080008008)]

/-- The round constants `RC[0..23]` (R99), a read-only table (R32): the left column, then the right one. -/
def RC : Vector Lane 24 :=
  Vector.ofFn fun ir => if h : ir.val < 12 then (rcRows[ir.val]'h).1 else (rcRows[ir.val - 12]'(by omega)).2

/-- The rotation offsets by lane index (R101), a read-only table (R33). -/
def rhoTable : Vector Nat 25 :=
  #v[0, 1, 62, 28, 27,
     36, 44, 6, 55, 20,
     3, 10, 43, 25, 39,
     41, 45, 15, 21, 8,
     18, 2, 61, 56, 14]

/-- `RHO[x][y]`, first indexed by the column (R101, 92_eei_decisions.md D21). -/
def RHO (x y : Coord) : Nat := rhoTable[laneIndex x y]

/-- θ's column parities `C[x]` (R91). -/
def thetaC (A : Lanes) : Columns :=
  Vector.ofFn fun x =>
    laneXor (laneXor (laneXor (laneXor (laneAt A x 0) (laneAt A x 1)) (laneAt A x 2)) (laneAt A x 3)) (laneAt A x 4)

/-- θ's column differences `D[x]`, computed from `C` (R91). -/
def thetaD (C : Columns) : Columns :=
  Vector.ofFn fun x : Coord => laneXor C[x + 4] (rotl64 C[x + 1] 1)

/-- θ (R91). -/
def theta (A : Lanes) : Lanes :=
  let D := thetaD (thetaC A)
  ofCoords fun x y => laneXor (laneAt A x y) D[x]

/-- ρ (R92). -/
def rho (A : Lanes) : Lanes := ofCoords fun x y => rotl64 (laneAt A x y) (RHO x y)

/-- Where π takes the lane at `(x, y)`: `(y, 2x + 3y)` (R93). -/
def piTarget (x y : Coord) : Coord × Coord := (y, 2 * x + 3 * y)

/-- π in the gather form of R93: `A'[X,Y] = A[X+3Y, X]`. -/
def pi (A : Lanes) : Lanes := ofCoords fun X Y => laneAt A (X + 3 * Y) X

/-- The fused ρ∘π in the gather form of R94, the form the engine computes: its result is the scratch state `B`. -/
def rhoPi (A : Lanes) : Lanes :=
  ofCoords fun X Y => rotl64 (laneAt A (X + 3 * Y) X) (RHO (X + 3 * Y) X)

/-- χ, every lane computed from `B` (R95). -/
def chi (B : Lanes) : Lanes :=
  ofCoords fun x y => laneXor (laneAt B x y) (laneAnd (laneNot (laneAt B (x + 1) y)) (laneAt B (x + 2) y))

/-- ι (R96): only lane 0 changes. -/
def iota (A : Lanes) (ir : Fin 24) : Lanes := A.set 0 (laneXor A[0] RC[ir])

/-- The round function `Rnd(A, ir)` (R97). -/
@[irreducible] def roundFn (A : Lanes) (ir : Fin 24) : Lanes := iota (chi (rhoPi (theta A))) ir

/-- `n` rounds in ascending order, from round `ir` on (R90, R98).
A round number is below 24 at every use. -/
def rounds : Nat → Nat → Lanes → Lanes
  | 0, _, A => A
  | n + 1, ir, A => rounds n (ir + 1) (roundFn A (Fin.ofNat 24 ir))

/-- The permutation `KeccakF(A)`: rounds 0, 1, …, 23 (R90). -/
@[irreducible] def keccakF (A : Lanes) : Lanes := rounds Config.roundCount 0 A

/-- One step of the 8-bit LFSR of R100, `R[j]` being bit `j`: shift up, and the bit shifted out goes into bits 0, 4, 5 and 6. -/
def lfsrStep (R : BitVec 8) : BitVec 8 := (R <<< 1) ^^^ (if R.msb then 0x71 else 0)

/-- The LFSR after `n` steps from `R = [1,0,0,0,0,0,0,0]` (R100). -/
def lfsr : Nat → BitVec 8
  | 0 => 1
  | n + 1 => lfsrStep (lfsr n)

/-- `rc(t)` (R100). -/
def rcBit (t : Nat) : Bool := (lfsr (t % 255)).getLsbD 0

/-- `RC[ir]` by the generating rule of R100: the sum over `j` in 0..6 of `rc(j + 7·ir) · 2^(2^j − 1)`. -/
def generatedRC (ir : Nat) : Nat :=
  ((List.range 7).map fun j => if rcBit (j + 7 * ir) then 2 ^ (2 ^ j - 1) else 0).sum

/-- The walk of R102 from `(1, 0)`: the coordinates at step `t`. -/
def rhoWalk : Nat → Coord × Coord
  | 0 => (1, 0)
  | t + 1 => piTarget (rhoWalk t).1 (rhoWalk t).2

/-- The amount the walk of R102 gives at step `t`. -/
def rhoAmount (t : Nat) : Nat := (t + 1) * (t + 2) / 2 % 64

end Sys2Proof.Machine
end

