-- ==== Sys2Proof/Machine/State.lean ====
section
/-! DEFINITION. The state of one engine as plain data (10_state.md R20 to R31, 70_reset_and_hazards.md R170), the reasons a step can stop, and the state after reset (R171). -/

namespace Sys2Proof.Machine

/-- The error names of 60_exceptions.md R151. -/
inductive ErrorName where
  | absorbAfterFinal
  | finalAfterFinal
  | digestBeforeFinal
  | illegalCommand
deriving DecidableEq, Repr

/-- What the host does at the ports, at the level of transactions (R181): it holds `rst`, or it presents a word and
holds it until the engine accepts it (R175), or it lets a cycle pass with `cmd_valid = 0`. -/
inductive HostMove where
  /-- `rst = 1` at an edge (R171). -/
  | reset
  /-- A word presented on `cmd_word` until it is accepted (R175); any of the 65,536 words (R181). -/
  | command (w : CommandWord)
  /-- A cycle in which the host presents nothing. -/
  | idle
deriving DecidableEq, Repr

/-- The state of one engine. -/
structure State where
  /-- The Keccak state, 25 lanes (R21). -/
  S : Lanes
  /-- The next rate byte, an 8-bit register that holds 0..135 (R25). -/
  offset : BitVec 8
  /-- The finalized flag (R26). -/
  FIN : Bool
  /-- The error-recorded flag (R27). -/
  ERR : Bool
  /-- The first error's code (R27). -/
  ECODE : BitVec 3
  /-- The response register (R29). -/
  rspByte : Byte
  /-- The register behind the port `rsp_valid` (R170, R171, R177). -/
  rspValid : Bool
  /-- A permutation is in progress (R30). -/
  busy : Bool
  /-- The round index, 5 bits that hold 0..23 (R30). -/
  ir : Fin 24
  /-- Scratch: the ρ∘π output (R31). -/
  B : Lanes
  /-- Scratch: the θ column parities (R31). -/
  C : Columns
  /-- Scratch: the θ column differences (R31). -/
  D : Columns
  /-- THE MODEL'S OWN (log entry 3): what the host is yet to do at the ports, first move first. -/
  inbox : List HostMove
  /-- THE MODEL'S OWN (log entry 2): how many free lanes have been drawn. -/
  draws : Nat
deriving DecidableEq, Repr

/-- The reasons the model stops.
The engine itself has none: "The engine has no traps, no exception vectors and no way to stop the host" (R150). -/
inductive Fault where
  /-- A byte position outside the state byte space 0..199 of 20_memory.md R40.
  Raised by ABSORB and FINAL when `offset` holds 200..255, which R25 says it never does (log entry 5).
  SAFE: no state that satisfies the invariant I1 raises it. -/
  | noSuchByte (k : Nat)
deriving DecidableEq, Repr

/-- The refusals of the model. -/
inductive Refusal where
  /-- An instruction whose meaning the model lacks, raised by `exec` alone.
  SAFE; no arm of `exec` raises it, since every command has its meaning. -/
  | notModelled (mnemonic : String)
deriving DecidableEq, Repr

/-- The result type of every meaning. -/
abbrev Result := Host.Outcome State Fault Refusal

/-- The 25-lane state that is all zero, `0^1600` (R13). -/
abbrev zeroLanes : Lanes := Vector.replicate 25 0

/-- The state after reset: the values of the table of R20 and of R171.
The scratch lanes have no reset value (R172); 0 is the model's (log entry 1). -/
def State.reset : State where
  S := zeroLanes
  offset := 0
  FIN := false
  ERR := false
  ECODE := 0
  rspByte := 0
  rspValid := false
  busy := false
  ir := 0
  B := zeroLanes
  C := Vector.replicate 5 0
  D := Vector.replicate 5 0
  inbox := []
  draws := 0

end Sys2Proof.Machine
end

