-- ==== Sys2Proof/Machine/Ops.lean ====
section
/-! DEFINITION. The named operations over the state bytes and registers: MemRead and MemWrite (R14, R22), the response (R14, R29), raise Error (R152), the permutation of S (R105), the round mapper's start, cycle and completion (R30, R176), the free scratch lanes, reset (R171) and an idle cycle (R166). -/

namespace Sys2Proof.Machine

/-! ### The state byte space (20_memory.md R40) -/

/-- Byte `j` (0..7) of a lane is `v[8j+7:8j]` (R10). -/
def laneByte (v : Lane) (j : Nat) : Byte := v.extractLsb' (8 * j) 8

/-- The lane with byte `j` replaced and every other bit unchanged (R22). -/
def setLaneByte (v : Lane) (j : Nat) (b : Byte) : Lane :=
  v &&& ~~~((0xFF : Lane) <<< (8 * j)) ||| b.zeroExtend 64 <<< (8 * j)

/-- `MemRead(k, 1)` (R14, R22); none where `k` is no byte of the space 0..199 (R40). -/
def memRead (A : Lanes) (k : Nat) : Option Byte :=
  if h : k < 200 then some (laneByte (A[k / 8]'(by omega)) (k % 8)) else none

/-- `MemWrite(k, 1, v)` (R14, R22); none where `k` is no byte of the space 0..199 (R40). -/
def memWrite (A : Lanes) (k : Nat) (b : Byte) : Option Lanes :=
  if h : k < 200 then some (A.set (k / 8) (setLaneByte (A[k / 8]'(by omega)) (k % 8) b) (by omega)) else none

/-- `MemWrite(k, 1, MemRead(k, 1) ⊕ b)`: the one way a single byte is ever modified (R14). -/
def memXor (A : Lanes) (k : Nat) (b : Byte) : Option Lanes :=
  (memRead A k).bind fun old => memWrite A k (old ^^^ b)

/-- The state bytes as a canonical list of cells: positions rising, a byte that is 0 not listed.
A reading of `S`, not separate storage (R22, log entry 6). -/
def Memory.cells (A : Lanes) : List Host.Cell :=
  (List.range 200).filterMap fun k =>
    (memRead A k).bind fun b => if b = 0 then none else some (k, b)

/-- The canonical form of a list of cells: addresses strictly rising, all in 0..199, and no listed byte 0. -/
abbrev Memory.wf (cells : List Host.Cell) : Prop :=
  cells.Pairwise (fun a b => a.1 < b.1) ∧ ∀ c ∈ cells, c.1 < 200 ∧ c.2 ≠ 0

/-! ### Responses -/

/-- `respond(v)`: the response register and its one-cycle valid (R14, R29, R177). -/
def respond (v : Byte) (s : State) : State := { s with rspByte := v, rspValid := true }

/-- The end of a command that gives no response: `rsp_valid` is 0 in the cycle after it, `rsp_byte` keeps its value (R177). -/
def noResponse (s : State) : State := { s with rspValid := false }

/-- The optional response byte of R120's step, as the host sees it after the step (R177). -/
def State.response (s : State) : Option Byte := if s.rspValid then some s.rspByte else none

/-! ### Taking an error: the engine's only exception (60_exceptions.md R150) -/

/-- The codes of R151. -/
def ErrorName.code : ErrorName → BitVec 3
  | .absorbAfterFinal => 1
  | .finalAfterFinal => 2
  | .digestBeforeFinal => 3
  | .illegalCommand => 4

/-- `raise Error(code)`: records the first error only (R152).
Nothing is saved and no control is transferred (R154). -/
def raiseError (e : ErrorName) (s : State) : State :=
  if s.ERR then s else { s with ERR := true, ECODE := e.code }

/-- The return to no error recorded, which INIT and reset make (R156). -/
def clearError (s : State) : State := { s with ERR := false, ECODE := 0 }

/-! ### The scratch lanes (R31) -/

/-- `n` fresh free lanes, from draw `k` on. -/
@[irreducible] def freshLanes (n k : Nat) : Vector Lane n := Vector.ofFn fun i => Config.freeLane (k + i.val)

/-- The scratch lanes take contents the spec leaves unspecified: 35 fresh free lanes (R31, R172, U9; log entry 2). -/
def redrawScratch (s : State) : State :=
  { s with
    B := freshLanes 25 s.draws
    C := freshLanes 5 (s.draws + 25)
    D := freshLanes 5 (s.draws + 30)
    draws := s.draws + 35 }

/-! ### The round mapper -/

/-- `S <- KeccakF(S)` as a command's step makes it: whole, with the sequencer back at rest (R30, R44, R105). -/
def permute (s : State) : State :=
  redrawScratch { s with S := keccakF s.S, busy := false, ir := 0 }

/-- The sequencer's start, at the edge that accepts a command which permutes (R176): round 0 comes next. -/
def startPermutation (s : State) : State := { s with busy := true, ir := 0 }

/-- One clock of the round mapper: the round `ir` names, then the next round or rest (R30, R104). -/
def roundCycle (s : State) : State :=
  redrawScratch
    { s with
      S := roundFn s.S s.ir
      rspValid := false
      busy := decide (s.ir ≠ 23)
      ir := if s.ir = 23 then 0 else s.ir + 1 }

/-- The rest of a permutation in progress, round `ir` to round 23; nothing when none is in progress (R175: "held by the host" meanwhile). -/
def finishPermutation (s : State) : State :=
  if s.busy then
    redrawScratch { s with S := rounds (24 - s.ir.val) s.ir.val s.S, rspValid := false, busy := false, ir := 0 }
  else s

/-! ### Reset and rest -/

/-- An edge with `rst = 1` (R171): every element takes its reset value, a permutation in progress is abandoned.
The scratch lanes have none and become free (R172).
What the host is yet to do is not the engine's and stays. -/
def resetEngine (s : State) : State :=
  redrawScratch { State.reset with inbox := s.inbox, draws := s.draws }

/-- A cycle in which the engine is idle and accepts nothing: all state is held (R166) and `rsp_valid` is 0 (R177). -/
def idleCycle (s : State) : State := noResponse s

end Sys2Proof.Machine
end

