-- ==== Sys2Proof/Machine/Flags.lean ====
section
/-! DEFINITION. The flags and what the host reads of them: the status byte (10_state.md R28), the offset read-out (R129), and INIT's values (42_sponge_commands.md R122). -/

namespace Sys2Proof.Machine

/-- `status = {0b000, ECODE[2:0], ERR, FIN}`, composed on read (R28). -/
def statusByte (s : State) : Byte :=
  (0 : BitVec 3) ++ s.ECODE ++ BitVec.ofBool s.ERR ++ BitVec.ofBool s.FIN

/-- What ROFF responds with: `offset`, an 8-bit value (R129). -/
def offsetByte (s : State) : Byte := s.offset

/-- The context INIT starts: state, offset and finalized flag at zero, the error record cleared, `rsp_byte` unchanged (R122). -/
def newContext (s : State) : State :=
  clearError { s with S := zeroLanes, offset := 0, FIN := false }

end Sys2Proof.Machine
end

