-- ==== Sys2Proof/Machine/Control.lean ====
section
/-! DEFINITION. The commands that touch no message byte: NOP (R121) and INIT (R122) of 42_sponge_commands.md. -/

namespace Sys2Proof.Machine

/-- NOP: "nothing changes", and no response (R121). -/
def execNop (s : State) : Result := .next (noResponse s)

/-- INIT: a new context, legal in every state, no response (R122). -/
def execInit (s : State) : Result := .next (noResponse (newContext s))

end Sys2Proof.Machine
end

