-- ==== Sys2Proof/Machine/Operands.lean ====
section
/-! DEFINITION. The operands of the commands: the state byte each one names (20_memory.md R40, R46) and the state after an operand is applied. The fields of the command word stand in Decode.lean (R61). -/

namespace Sys2Proof.Machine

/-- The byte ABSORB XORs into, and the byte FINAL XORs the domain byte into: `offset` (R123, R125). -/
def absorbPosition (s : State) : Nat := s.offset.toNat

/-- The byte FINAL XORs the padding trailer into: 135, the last rate byte (R7, R125). -/
def trailerPosition : Nat := Config.rateBytes - 1

/-- The byte RDIG reads: `i` (R127). -/
def digestPosition (i : BitVec 5) : Nat := i.toNat

/-- ABSORB's operand form: the byte is XORed into the state at `offset` as it is (R61, R123). -/
def absorbByte (b : Byte) (s : State) : Option Lanes := memXor s.S (absorbPosition s) b

/-- FINAL's padding, the two XORs in their order, not special-cased where they meet (R125, R126). -/
def padBlock (s : State) : Option Lanes :=
  (memXor s.S (absorbPosition s) Config.domainByte).bind fun A => memXor A trailerPosition Config.trailerByte

/-- RDIG's operand form: byte `i` of the state (R127). -/
def digestByte (i : BitVec 5) (s : State) : Byte :=
  laneByte (s.S[digestPosition i / 8]'(by unfold digestPosition; omega)) (digestPosition i % 8)

end Sys2Proof.Machine
end

