-- ==== Sys2Proof/Machine/Readout.lean ====
section
/-! DEFINITION. The commands that respond: RDIG (R127), RSTAT (R128) and ROFF (R129) of 42_sponge_commands.md. -/

namespace Sys2Proof.Machine

/-- RDIG i: the squeeze; before FINAL an error and the response 0x00 (R127). -/
def execRdig (i : BitVec 5) (s : State) : Result :=
  if s.FIN then .next (respond (digestByte i s) s)
  else .next (respond 0x00 (raiseError .digestBeforeFinal s))

/-- RSTAT: respond with the status byte (R128). -/
def execRstat (s : State) : Result := .next (respond (statusByte s) s)

/-- ROFF: respond with `offset` (R129). -/
def execRoff (s : State) : Result := .next (respond (offsetByte s) s)

end Sys2Proof.Machine
end

