-- ==== Sys2Proof/Machine/Sponge.lean ====
section
/-! DEFINITION. The commands that write the state: ABSORB (R123, R124) and FINAL (R125, R126) of 42_sponge_commands.md. Each is given over the way its permutation is run, so that the atomic step (R44) and the clock's first edge (R176) share one meaning. -/

namespace Sys2Proof.Machine

/-- ABSORB b, its block permutation run by `perm` (R123, R124). -/
def absorbWith (perm : State → State) (b : Byte) (s : State) : Result :=
  if s.FIN then .next (raiseError .absorbAfterFinal (noResponse s))
  else
    match absorbByte b s with
    | none => .fault (.noSuchByte (absorbPosition s))
    | some A =>
      if s.offset = 135 then .next (perm { noResponse s with S := A, offset := 0 })
      else .next { noResponse s with S := A, offset := s.offset + 1 }

/-- FINAL, its permutation run by `perm` (R125). -/
def finalWith (perm : State → State) (s : State) : Result :=
  if s.FIN then .next (raiseError .finalAfterFinal (noResponse s))
  else
    match padBlock s with
    | none => .fault (.noSuchByte (absorbPosition s))
    | some A => .next (perm { noResponse s with S := A, FIN := true })

/-- ABSORB b as one atomic step (R123, R44). -/
def execAbsorb (b : Byte) (s : State) : Result := absorbWith permute b s

/-- FINAL as one atomic step (R125, R44). -/
def execFinal (s : State) : Result := finalWith permute s

end Sys2Proof.Machine
end

