-- ==== Sys2Proof/Machine/Dispatch.lean ====
section
/-! DEFINITION. The meaning of a command: one arm for each constructor of Instr (42_sponge_commands.md R120). -/

namespace Sys2Proof.Machine

def exec (i : Instr) (s : State) : Host.Outcome State Fault Refusal :=
  match i with
  | .nop => Sys2Proof.Machine.execNop s
  | .init => Sys2Proof.Machine.execInit s
  | .absorb b => Sys2Proof.Machine.execAbsorb b s
  | .final => Sys2Proof.Machine.execFinal s
  | .rdig k => Sys2Proof.Machine.execRdig k s
  | .rstat => Sys2Proof.Machine.execRstat s
  | .roff => Sys2Proof.Machine.execRoff s

end Sys2Proof.Machine
end

