-- ==== Sys2Proof/Machine/Accept.lean ====
section
/-! DEFINITION. The step of R120 on an accepted command word, the legality check first (60_exceptions.md R153). -/

namespace Sys2Proof.Machine

/-- An accepted illegal word: `raise Error(ILLEGAL_COMMAND)`, nothing else changes, no response (R64). -/
def acceptIllegal (s : State) : State := raiseError .illegalCommand (noResponse s)

/-- `Step(st, w)` of R120: the atomic effect of one accepted word. -/
def acceptWord (w : CommandWord) (s : State) : Result :=
  match decode w with
  | .ok i => exec i s
  | .error _ => .next (acceptIllegal s)

/-- One move of the host: what the engine does for it.
A word presented while a permutation is in progress is held until that is complete (R175), and `rst` abandons it (R171; log entry 7). -/
def hostMove (m : HostMove) (s : State) : Result :=
  match m with
  | .reset => .next (resetEngine s)
  | .command w => acceptWord w (finishPermutation s)
  | .idle => .next (idleCycle (finishPermutation s))

end Sys2Proof.Machine
end

