-- ==== Sys2Proof/Machine/Step.lean ====
section
/-! DEFINITION. One step of the engine: the host's next move (R120, R175), or rest where it makes none (R166, R182). -/

namespace Sys2Proof.Machine

/-- One step of the engine.
The engine has no program counter and fetches nothing (R24): its next command is the host's next move. -/
def step (s : State) : Host.Outcome State Fault Refusal :=
  match s.inbox with
  | [] => hostMove .idle s
  | m :: rest => hostMove m { s with inbox := rest }

/-- `s` with the host's very next move the presentation of the table's word `w` (log entry 4).
The engine fetches nothing (R24), so this is where its next command stands. -/
def State.withFetchWord (s : State) (nbits w : Nat) : State :=
  { s with inbox := .command (tableWord nbits w) :: s.inbox }

end Sys2Proof.Machine
end

