-- ==== Sys2Proof/Machine/Assembler.lean ====
section
/-! DEFINITION. The assembler and the disassembler of 30_encoding.md R67 to R69: source text to lines, lines to command words with the pseudo-instructions' expansions, and words back to text. Text is a list of characters. -/

namespace Sys2Proof

/-! ### Lines to words -/

/-- `ABSORB` of a number in range (R67). -/
def absorbWord (b : Nat) : CommandWord := encode (.absorb (BitVec.ofNat 8 b))

/-- `RDIGEST`: `RDIG 0`, …, `RDIG 31` (R68). -/
def digestWords : List CommandWord := (List.range 32).map fun i => encode (.rdig (BitVec.ofNat 5 i))

/-- The words of a well-formed line, a pseudo-instruction's by its expansion (R67, R68). -/
def Line.words : Line → List CommandWord
  | .nop => [encode .nop]
  | .init => [encode .init]
  | .absorb b => [absorbWord b]
  | .final => [encode .final]
  | .rdig i => [encode (.rdig (BitVec.ofNat 5 i))]
  | .rstat => [encode .rstat]
  | .roff => [encode .roff]
  | .word w => [BitVec.ofNat 16 w]
  | .absorbs bs => bs.map absorbWord
  | .rdigest => digestWords
  | .hash m => [encode .init] ++ m.map absorbWord ++ [encode .final] ++ digestWords
  | .zeros n => List.replicate n (absorbWord 0)

/-- The assembly of a line: nothing where an operand is out of range (R67: "the assembler emits nothing"). -/
def Line.assemble (l : Line) : Option (List CommandWord) := if l.wellFormed then some l.words else none

/-- The assembly of a program: its lines' words in order, or nothing where one line is an error (R67). -/
def assembleLines : List Line → Option (List CommandWord)
  | [] => some []
  | l :: ls => do return (← l.assemble) ++ (← assembleLines ls)

/-! ### Text to lines -/

/-- A blank between the parts of a line. -/
def isBlank (c : Char) : Bool := c == ' ' || c == '\t'

/-- The text after its leading blanks. -/
def skipBlanks (cs : List Char) : List Char := cs.dropWhile isBlank

/-- Only blanks and a comment are left: "Comments start with `;`" (R67). -/
def atEnd (cs : List Char) : Bool :=
  match skipBlanks cs with
  | [] => true
  | c :: _ => c == ';'

/-- The digits of R67's decimal and hex numbers in the order of their values, as the disassembler prints them (capitals; log entry 9). -/
def digits : List Char := "0123456789ABCDEF".toList

/-- The digit of a value below 16. -/
def digitChar (n : Nat) : Char := digits.getD n '0'

/-- The value of a digit, its place among the digits; a small letter counts as its capital (log entry 9). -/
def digitValue (c : Char) : Option Nat := digits.findIdx? fun d => d == c || d.toLower == c

/-- The digits of a number in `base`, and the text after them. -/
def readDigits (base : Nat) : Nat → List Char → Nat × List Char
  | acc, [] => (acc, [])
  | acc, c :: cs =>
    match digitValue c with
    | some d => if d < base then readDigits base (acc * base + d) cs else (acc, c :: cs)
    | none => (acc, c :: cs)

/-- A number's digits, at least one of them. -/
def readNumberIn (base : Nat) (cs : List Char) : Option (Nat × List Char) :=
  match cs with
  | [] => none
  | c :: _ =>
    match digitValue c with
    | some d => if d < base then some (readDigits base 0 cs) else none
    | none => none

/-- A number in decimal or in `0x` hex (R67). -/
def readNumber (cs : List Char) : Option (Nat × List Char) :=
  match cs with
  | '0' :: 'x' :: rest => readNumberIn 16 rest
  | _ => readNumberIn 10 cs

/-- A byte operand: a number, or a character literal `'a'` for its ASCII code (R67).
A literal has no escapes, so any ASCII character may stand between the quotes, the quote itself and `;` among them (log entry 9). -/
def readByte (cs : List Char) : Option (Nat × List Char) :=
  match cs with
  | '\'' :: c :: '\'' :: rest => if c.toNat < 128 then some (c.toNat, rest) else none
  | _ => readNumber cs

/-- The bytes of a text's ASCII encoding up to its closing quote, with no terminator (R68). -/
def readText : List Char → Option (List Nat × List Char)
  | [] => none
  | c :: cs =>
    if c = '"' then some ([], cs)
    else if c.toNat < 128 then (readText cs).map fun r => (c.toNat :: r.1, r.2)
    else none

/-- `b0, b1, …, bn-1`, at most `fuel` of them. -/
def readBytes : Nat → List Char → Option (List Nat × List Char)
  | 0, _ => none
  | fuel + 1, cs => do
    let (b, rest) ← readByte (skipBlanks cs)
    match skipBlanks rest with
    | ',' :: more =>
      let (bs, last) ← readBytes fuel more
      return (b :: bs, last)
    | _ => return ([b], rest)

/-- The operand of `ABSORBS` and `HASH`: a quoted text, a list of bytes, or nothing, the empty list (R68). -/
def readMessage (cs : List Char) : Option (List Nat × List Char) :=
  if atEnd cs then some ([], cs)
  else
    match skipBlanks cs with
    | '"' :: rest => readText rest
    | rest => readBytes (rest.length + 1) rest

/-- A character of a mnemonic, which ends at a blank, at a comment or at the end of the line (log entry 9). -/
def inMnemonic (c : Char) : Bool := !isBlank c && c != ';'

/-- A line that ends after its operand. -/
def ended {α : Type} (r : α × List Char) (l : α → Line) : Option Line :=
  if atEnd r.2 then some (l r.1) else none

/-- One line of source text: none where it is an error, an empty line or a comment alone being no line (R67, R68). -/
def parseLine (cs : List Char) : Option (Option Line) :=
  if atEnd cs then some none
  else
    let text := skipBlanks cs
    let name := text.takeWhile inMnemonic
    let rest := text.dropWhile inMnemonic
    let operand := skipBlanks rest
    let bare (l : Line) : Option (Option Line) := if atEnd rest then some (some l) else none
    match name with
    | ['N', 'O', 'P'] => bare .nop
    | ['I', 'N', 'I', 'T'] => bare .init
    | ['A', 'B', 'S', 'O', 'R', 'B'] => ((readByte operand).bind fun r => ended r .absorb).map some
    | ['F', 'I', 'N', 'A', 'L'] => bare .final
    | ['R', 'D', 'I', 'G'] => ((readNumber operand).bind fun r => ended r .rdig).map some
    | ['R', 'S', 'T', 'A', 'T'] => bare .rstat
    | ['R', 'O', 'F', 'F'] => bare .roff
    | ['.', 'w', 'o', 'r', 'd'] => ((readNumber operand).bind fun r => ended r .word).map some
    | ['A', 'B', 'S', 'O', 'R', 'B', 'S'] => ((readMessage rest).bind fun r => ended r .absorbs).map some
    | ['R', 'D', 'I', 'G', 'E', 'S', 'T'] => bare .rdigest
    | ['H', 'A', 'S', 'H'] => ((readMessage rest).bind fun r => ended r .hash).map some
    | ['Z', 'E', 'R', 'O', 'S'] => ((readNumber operand).bind fun r => ended r .zeros).map some
    | _ => none

/-- The lines of a source text, one command per line (R67). -/
def parseLines : List (List Char) → Option (List Line)
  | [] => some []
  | cs :: more => do
    let l ← parseLine cs
    return l.toList ++ (← parseLines more)

/-- The assembler: source lines to words, or nothing where a line is an error. -/
def assembleText (src : List (List Char)) : Option (List CommandWord) := (parseLines src).bind assembleLines

/-! ### Words to text -/

/-- Four bits as one hex digit. -/
def hexDigit (d : BitVec 4) : Char := digitChar d.toNat

/-- `0x` and two hex digits (R69). -/
def hexByte (b : Byte) : List Char := ['0', 'x', hexDigit (b.extractLsb' 4 4), hexDigit (b.extractLsb' 0 4)]

/-- `0xHHHH` (R69). -/
def hexWord (w : CommandWord) : List Char :=
  ['0', 'x', hexDigit (w.extractLsb' 12 4), hexDigit (w.extractLsb' 8 4), hexDigit (w.extractLsb' 4 4),
   hexDigit (w.extractLsb' 0 4)]

/-- An index in decimal, without leading zeros (R69). -/
def decimalIndex (i : BitVec 5) : List Char :=
  if i.toNat < 10 then [digitChar i.toNat] else [digitChar (i.toNat / 10), digitChar (i.toNat % 10)]

/-- The disassembler (R69). -/
def disassemble (w : CommandWord) : List Char :=
  match decode w with
  | .ok .nop => "NOP".toList
  | .ok .init => "INIT".toList
  | .ok (.absorb b) => "ABSORB ".toList ++ hexByte b
  | .ok .final => "FINAL".toList
  | .ok (.rdig i) => "RDIG ".toList ++ decimalIndex i
  | .ok .rstat => "RSTAT".toList
  | .ok .roff => "ROFF".toList
  | .error _ => ".word ".toList ++ hexWord w

end Sys2Proof
end

