-- ==== Sys2Proof/Machine/Clock.lean ====
section
/-! DEFINITION. The engine clock by clock: the ports of 70_reset_and_hazards.md R170, one edge of `clk` (R171, R175 to R177), with one round of the round mapper for each busy cycle (R104; log entry 8). -/

namespace Sys2Proof.Machine

/-- The input ports at one edge of `clk` (R170). -/
structure PortsIn where
  rst : Bool
  cmdValid : Bool
  cmdWord : CommandWord
deriving DecidableEq, Repr

/-- The output ports (R170). -/
structure PortsOut where
  cmdReady : Bool
  rspValid : Bool
  rspByte : Byte
  busy : Bool
deriving DecidableEq, Repr

/-- The output ports in a cycle: a command can be accepted when no permutation is in progress and `rst = 0` (R171, R173, R176). -/
def portsOut (p : PortsIn) (s : State) : PortsOut where
  cmdReady := !s.busy && !p.rst
  rspValid := s.rspValid
  rspByte := s.rspByte
  busy := s.busy

/-- A word is accepted at an edge where `cmd_valid = 1`, `cmd_ready = 1` and `rst = 0` (R175). -/
def accepts (p : PortsIn) (s : State) : Bool := p.cmdValid && (portsOut p s).cmdReady && !p.rst

/-- The effect of a legal command at the edge that accepts it: a command that permutes starts the round mapper (R176), every other one is complete. -/
def execEdge (i : Instr) (s : State) : Result :=
  match i with
  | .absorb b => absorbWith startPermutation b s
  | .final => finalWith startPermutation s
  | .nop => exec .nop s
  | .init => exec .init s
  | .rdig k => exec (.rdig k) s
  | .rstat => exec .rstat s
  | .roff => exec .roff s

/-- The effect of an accepted word at the edge that accepts it. -/
def acceptEdge (w : CommandWord) (s : State) : Result :=
  match decode w with
  | .ok i => execEdge i s
  | .error _ => .next (acceptIllegal s)

/-- One rising edge of `clk`. -/
def tick (p : PortsIn) (s : State) : Result :=
  if p.rst then .next (resetEngine s)
  else if s.busy then .next (roundCycle s)
  else if accepts p s then acceptEdge p.cmdWord s
  else .next (idleCycle s)

/-- The edges of a sequence of cycles, one after another. -/
def ticks : List PortsIn → State → Result
  | [], s => .next s
  | p :: ps, s =>
    match tick p s with
    | .next t => ticks ps t
    | .fault r => .fault r
    | .refused r => .refused r

end Sys2Proof.Machine
end

