-- ==== Sys2Proof/Machine/Reference.lean ====
section
/-! DEFINITION. SHA3-256 as a function of a byte string, the digest that 42_sponge_commands.md R130 and R131 say the engine computes: padding of the whole message, absorption block by block, the first 32 bytes squeezed. It shares KeccakF with the engine and nothing of the command machinery. -/

namespace Sys2Proof.Machine

/-- The file with byte `b` XORed into state byte `k` (R14); positions are below 200 at every use. -/
def xorByteAt (A : Lanes) (k : Nat) (b : Byte) : Lanes :=
  if h : k < 200 then A.set (k / 8) (A[k / 8]'(by omega) ^^^ b.zeroExtend 64 <<< (8 * (k % 8))) (by omega) else A

/-- The file with a string of bytes XORed in from state byte `k` on (R130). -/
def xorBytes (A : Lanes) (k : Nat) : List Byte → Lanes
  | [] => A
  | b :: bs => xorBytes (xorByteAt A k b) (k + 1) bs

/-- Block `j` of a string: its bytes `136·j .. 136·j + 135` (R17). -/
def block (m : List Byte) (j : Nat) : List Byte := (m.drop (136 * j)).take 136

/-- The absorption of the first `n` blocks of a string (R130). -/
def absorbBlocks (A : Lanes) (m : List Byte) (n : Nat) : Lanes :=
  (List.range n).foldl (fun A j => keccakF (xorBytes A 0 (block m j))) A

/-- The padding of a message to whole blocks: 0x06, zeros, 0x80, or 0x86 alone where one byte is free (R125, R126, R133). -/
def padding (n : Nat) : List Byte :=
  if n % 136 = 135 then [0x86] else 0x06 :: (List.replicate (134 - n % 136) 0 ++ [0x80])

/-- The first 32 bytes of a state (R7). -/
def squeeze (A : Lanes) : List Byte :=
  (List.range 32).map fun k => laneByte (A[k / 8]?.getD 0) (k % 8)

/-- SHA3-256 of a byte string (R2, R131). -/
def sha3_256 (m : List Byte) : List Byte :=
  let p := m ++ padding m.length
  squeeze (absorbBlocks zeroLanes p (p.length / 136))

end Sys2Proof.Machine
end

