-- ==== Sys2Proof/Machine/Timing.lean ====
section
/-! DEFINITION. The timing table of 70_reset_and_hazards.md R176, R179 and R180. It is not architectural: no meaning reads it. -/

namespace Sys2Proof.Machine

/-- A command triggers a permutation: an ABSORB with `FIN = 0` and `offset = 135`, or a FINAL with `FIN = 0` (R176). -/
def triggersPermutation (i : Instr) (s : State) : Bool :=
  match i with
  | .absorb _ => !s.FIN && s.offset == 135
  | .final => !s.FIN
  | .nop | .init | .rdig _ | .rstat | .roff => false

/-- The cycles from the acceptance of a word until `cmd_ready = 1` again (R180). -/
def commandCycles (w : CommandWord) (s : State) : Nat :=
  match decode w with
  | .ok i => if triggersPermutation i s then 1 + Config.permCycles else 1
  | .error _ => 1

end Sys2Proof.Machine
end

