-- ==== Sys2Proof/Machine/Session.lean ====
section
/-! DEFINITION. A host's session: the words it presents one after another, the responses it gets in their order (20_memory.md R48) and the cycles they take (R180), and the steps that take those words from the host's moves. -/

namespace Sys2Proof.Machine

/-- What a session has brought about. -/
structure Session where
  /-- The engine after the last word. -/
  state : State
  /-- The response bytes, in order. -/
  responses : List Byte
  /-- The cycles from the first acceptance until `cmd_ready = 1` after the last word. -/
  cycles : Nat
deriving DecidableEq, Repr

/-- The words taken one after another, each seeing the state left by all earlier ones (R48). -/
def runWords : List CommandWord → State → Host.Outcome Session Fault Refusal
  | [], s => .next ⟨s, [], 0⟩
  | w :: ws, s =>
    match acceptWord w s with
    | .next t =>
      match runWords ws t with
      | .next u => .next ⟨u.state, t.response.toList ++ u.responses, commandCycles w s + u.cycles⟩
      | .fault r => .fault r
      | .refused r => .refused r
    | .fault r => .fault r
    | .refused r => .refused r

/-- `n` steps of the engine, with the response byte of each step that gives one, in order (R120). -/
def runSteps : Nat → State → Host.Outcome (State × List Byte) Fault Refusal
  | 0, s => .next (s, [])
  | n + 1, s =>
    match step s with
    | .next t =>
      match runSteps n t with
      | .next (u, rs) => .next (u, t.response.toList ++ rs)
      | .fault r => .fault r
      | .refused r => .refused r
    | .fault r => .fault r
    | .refused r => .refused r

/-- The message bytes of a session: the operands of its ABSORBs, in order (R130). -/
def absorbedBytes (ws : List CommandWord) : List Byte :=
  ws.filterMap fun w => match decode w with
    | .ok (.absorb b) => some b
    | .ok .nop | .ok .init | .ok .final | .ok (.rdig _) | .ok .rstat | .ok .roff => none
    | .error _ => none

end Sys2Proof.Machine
end

