-- ==== Sys2Proof/Machine/System.lean ====
section
/-! DEFINITION. Several engines in one system (60_exceptions.md R164, 20_memory.md R53): `N_INSTANCES` of R9 is the length of the vector. -/

namespace Sys2Proof.Machine

/-- A system of `n` engines, each with a state and a port of its own (R164). -/
abbrev Engines (n : Nat) := Vector State n

/-- The host's move at the port of engine `k`. -/
def moveAt {n : Nat} (k : Fin n) (m : HostMove) (sys : Engines n) : Host.Outcome (Engines n) Fault Refusal :=
  match hostMove m sys[k] with
  | .next t => .next (sys.set k t)
  | .fault r => .fault r
  | .refused r => .refused r

end Sys2Proof.Machine
end

