-- ==== Sys2Proof/Safety.lean ====
section
/-! DEFINITION. The invariants of 10_state.md R34 and what counts as a safe run (60_exceptions.md R155). -/

namespace Sys2Proof.Machine

/-- The invariants that hold at every point the host can observe: I1 (`offset` in 0..135), the consistency of the error record (R34), and the round index at rest when no permutation is in progress (R30). -/
abbrev Invariants (s : State) : Prop :=
  s.offset.toNat < Config.rateBytes ∧
  (s.ERR = false → s.ECODE = 0) ∧
  (s.ERR = true → 1 ≤ s.ECODE.toNat ∧ s.ECODE.toNat ≤ 4) ∧
  (s.busy = false → s.ir = 0)

/-- Between two accepted commands: the invariants, and no permutation in progress (R34, R175). -/
abbrev Ready (s : State) : Prop := Invariants s ∧ s.busy = false

/-- A safe run ends with no error recorded: the premise R155 asks of every claim about a digest. -/
abbrev Clean (s : State) : Prop := s.ERR = false

/-- Two states equal in everything the spec fixes: only the scratch lanes, whose contents R31 leaves unspecified, and the model's draw counter may differ. -/
abbrev EqualButScratch (s t : State) : Prop :=
  { s with B := t.B, C := t.C, D := t.D, draws := t.draws } = t

/-- The architectural state of R20 is the same. -/
abbrev SameArchitecture (s t : State) : Prop :=
  s.S = t.S ∧ s.offset = t.offset ∧ s.FIN = t.FIN ∧ s.ERR = t.ERR ∧ s.ECODE = t.ECODE ∧ s.rspByte = t.rspByte

/-- Two engines a host must not be able to tell apart (20_memory.md R47): they agree on every register, and on the digest bytes 0..31 once the context is finalized; on nothing else of `S`. -/
abbrev AgreeToTheHost (s t : State) : Prop :=
  s.offset = t.offset ∧ s.FIN = t.FIN ∧ s.ERR = t.ERR ∧ s.ECODE = t.ECODE ∧ s.rspByte = t.rspByte ∧
  s.rspValid = t.rspValid ∧ (s.FIN = true → ∀ k < Config.digestBytes, memRead s.S k = memRead t.S k)

end Sys2Proof.Machine
end

