-- ==== Sys2Proof/Certificates/Slice0/Obligations.lean ====
section
/-! DEFINITION. The statements for the provers, from the numbered rules of spec/. -/

open Sys2Proof Sys2Proof.Machine

/-! ### Encoding (30_encoding.md) -/

/-- Every command is what its own word decodes to, and no other word decodes to it: no bit of an encoding is dropped (R60 to R62). -/
def Obligations.DecodeIsInverseOfEncode : Prop :=
  ∀ (i : Instr) (w : CommandWord), decode w = .ok i ↔ encode i = w

/-- R63: the predicate in numbers, its agreement with the opcode map's rows, and the counts. -/
def Obligations.LegalWordsAreThe293OfTheMap : Prop :=
  (∀ w : CommandWord, legal w = true ↔
    (w.toNat / 4096 = 0 ∧ w.toNat % 4096 = 0) ∨ (w.toNat / 4096 = 1 ∧ w.toNat % 4096 = 0) ∨
    (w.toNat / 4096 = 2 ∧ w.toNat / 256 % 16 = 0) ∨ (w.toNat / 4096 = 3 ∧ w.toNat % 4096 = 0) ∨
    (w.toNat / 4096 = 4 ∧ w.toNat / 32 % 128 = 0) ∨ (w.toNat / 4096 = 5 ∧ w.toNat % 4096 = 0) ∨
    (w.toNat / 4096 = 6 ∧ w.toNat % 4096 = 0)) ∧
  (∀ w : CommandWord, legal w = true ↔ ∃ r ∈ opcodeMap, r.selects w = true) ∧
  (List.range 65536).countP (fun n => legal (BitVec.ofNat 16 n)) = 293 ∧
  (List.range 65536).countP (fun n => !legal (BitVec.ofNat 16 n)) = 65243

/-- R65: on each of the 65,536 words the decoder answers a command exactly where the word is legal, and ILLEGAL otherwise. -/
def Obligations.DecoderAnswersEveryWord : Prop :=
  ∀ w : CommandWord,
    (legal w = true ∧ ∃ i, decode w = .ok i) ∨ (legal w = false ∧ ∃ e, decode w = .error e)

/-- R62: "The rows' match sets are disjoint, so a word selects at most one row." -/
def Obligations.WordSelectsAtMostOneRow : Prop :=
  ∀ (w : CommandWord), ∀ r ∈ opcodeMap, ∀ q ∈ opcodeMap, r.selects w = true → q.selects w = true → r = q

/-- Words written out from the fields of R60 decode to the commands they stand for. -/
def Obligations.SampleWordsDecodeRight : Prop :=
  decode 0b0000_0000_00000000#16 = .ok .nop ∧ decode 0b0001_0000_00000000#16 = .ok .init ∧
  decode 0b0010_0000_01100001#16 = .ok (.absorb 0x61) ∧ decode 0b0011_0000_00000000#16 = .ok .final ∧
  decode 0b0100_0000_00011111#16 = .ok (.rdig 31) ∧ decode 0b0101_0000_00000000#16 = .ok .rstat ∧
  decode 0b0110_0000_00000000#16 = .ok .roff ∧ decode 0b0100_0000_00100000#16 = .error .indexOutOfRange

/-- R64: which words are illegal, and that accepting one records ILLEGAL_COMMAND (4) and changes nothing else, with no response (that the scratch lanes hold still too is log entry 2's choice). -/
def Obligations.IllegalWordOnlyRecordsItsError : Prop :=
  (∀ w : CommandWord, 7 ≤ w.toNat / 4096 → legal w = false) ∧
  (∀ w : CommandWord, w.toNat / 256 % 16 ≠ 0 → legal w = false) ∧
  (∀ w : CommandWord, w.toNat % 256 ≠ 0 →
    (w.toNat / 4096 = 0 ∨ w.toNat / 4096 = 1 ∨ w.toNat / 4096 = 3 ∨ w.toNat / 4096 = 5 ∨ w.toNat / 4096 = 6) →
    legal w = false) ∧
  (∀ w : CommandWord, w.toNat / 4096 = 4 → 32 ≤ w.toNat % 256 → legal w = false) ∧
  legal 0x0000 = true ∧
  (∀ (w : CommandWord) (s : State), legal w = false →
    acceptWord w s =
      .next { s with rspValid := false, ERR := true, ECODE := if s.ERR then s.ECODE else 4 })

/-! ### The step (42_sponge_commands.md R120) -/

/-- A step runs the decoded command: the host's next word, when it is a command `i`, is `exec i`, and when it is an illegal word, is the record of its error, after a permutation still in progress is complete (FinishingIsTheRestOfTheRounds says what that is); the same of a table word placed by `withFetchWord`.
The host's moves as a list, the completion before them and `withFetchWord` are log entries 3, 7 and 4. -/
def Obligations.StepRunsTheDecodedCommand : Prop :=
  (∀ (s : State) (w : CommandWord) (rest : List HostMove) (i : Instr),
    s.inbox = .command w :: rest → decode w = .ok i →
    step s = exec i (finishPermutation { s with inbox := rest }) ∧
    (s.busy = false → step s = exec i { s with inbox := rest })) ∧
  (∀ (s : State) (w : CommandWord) (rest : List HostMove) (e : IllegalReason),
    s.inbox = .command w :: rest → decode w = .error e →
    step s = .next (acceptIllegal (finishPermutation { s with inbox := rest })) ∧
    (s.busy = false → step s = .next (acceptIllegal { s with inbox := rest }))) ∧
  (∀ (s : State) (nbits w : Nat) (i : Instr),
    decodeTableWord nbits w = some i → s.busy = false → step (s.withFetchWord nbits w) = exec i s)

/-- R34 and R150: from every state with the invariants, whatever the host does next, the engine takes a next state, which has the invariants and is ready for a command.
The host's moves as a list, and the completion of a permutation before them, are log entries 3 and 7. -/
def Obligations.EveryStepGoesOnAndKeepsTheInvariants : Prop :=
  ∀ s : State, Invariants s → ∃ t, step s = .next t ∧ Ready t

/-- The state after reset has the invariants of R34 and is ready. -/
def Obligations.ResetStateIsReady : Prop := Ready State.reset

/-- R171: at an edge with `rst = 1` no command is accepted, every element takes its reset value, whatever was in progress, and the architectural state is that after INIT with `rsp_byte = 0x00`. -/
def Obligations.ResetEdgeGivesTheResetValues : Prop :=
  ∀ (p : PortsIn) (s : State), p.rst = true →
    (portsOut p s).cmdReady = false ∧ accepts p s = false ∧
    ∃ t, tick p s = .next t ∧
      t.S = zeroLanes ∧ t.offset = 0 ∧ t.FIN = false ∧ t.ERR = false ∧ t.ECODE = 0 ∧ t.rspByte = 0 ∧
      t.busy = false ∧ t.ir = 0 ∧ t.rspValid = false ∧
      ∃ u, exec .init s = .next u ∧ SameArchitecture t { u with rspByte := 0x00 }

/-- The host's reset, as a step, from every state (R171, R181). -/
def Obligations.ResetStepGivesTheResetState : Prop :=
  ∀ (s : State) (rest : List HostMove), s.inbox = .reset :: rest →
    ∃ t, step s = .next t ∧ EqualButScratch t { State.reset with inbox := rest, draws := t.draws }

/-- R166: with nothing presented, an idle engine holds all its state, in a step (no move left, or a cycle in which the host presents nothing) and at an edge of the clock; only `rsp_valid` ends (R177).
Where a permutation is in progress, such a step completes it and changes nothing else (R182).
The host's moves as a list and the completion are log entries 3 and 7; that an idle engine's scratch lanes hold still too is log entry 2's choice. -/
def Obligations.IdleEngineHoldsItsState : Prop :=
  (∀ s : State, s.busy = false → s.inbox = [] → step s = .next { s with rspValid := false }) ∧
  (∀ (s : State) (rest : List HostMove), s.busy = false → s.inbox = .idle :: rest →
    step s = .next { s with inbox := rest, rspValid := false }) ∧
  (∀ s : State, s.busy = true → s.inbox = [] →
    ∃ t, step s = .next t ∧
      EqualButScratch t
        { s with S := ((List.finRange 24).drop s.ir.val).foldl roundFn s.S, rspValid := false, busy := false, ir := 0 }) ∧
  (∀ (s : State) (rest : List HostMove), s.busy = true → s.inbox = .idle :: rest →
    ∃ t, step s = .next t ∧
      EqualButScratch t
        { s with inbox := rest, S := ((List.finRange 24).drop s.ir.val).foldl roundFn s.S, rspValid := false, busy := false, ir := 0 }) ∧
  (∀ (p : PortsIn) (s : State), s.busy = false → p.rst = false → p.cmdValid = false →
    (portsOut p s).cmdReady = true ∧ tick p s = .next { s with rspValid := false })

/-! ### The commands -/

/-- R121: NOP changes nothing and does not respond, in every state; its word is 0x0000, and any other word with op 0x0 is an ILLEGAL_COMMAND (that the scratch lanes hold still too is log entry 2's choice). -/
def Obligations.NopChangesNothing : Prop :=
  (∀ s : State, exec .nop s = .next { s with rspValid := false }) ∧
  encode .nop = 0x0000 ∧
  (∀ (w : CommandWord) (s : State), w.toNat / 4096 = 0 → w ≠ 0x0000 →
    acceptWord w s = .next { s with rspValid := false, ERR := true, ECODE := if s.ERR then s.ECODE else 4 })

/-- R122: INIT starts a new context in every state; a second INIT changes nothing, RSTAT after it returns 0x00, and no other command clears ERR.
That INIT and RSTAT hold the scratch lanes B, C and D still, which R31 leaves unspecified, is the model's choice (log entry 2), no rule's. -/
def Obligations.InitStartsANewContext : Prop :=
  encode .init = 0x1000 ∧
  (∀ s : State, ∃ t,
    exec .init s = .next t ∧
    t = { s with S := zeroLanes, offset := 0, FIN := false, ERR := false, ECODE := 0, rspValid := false } ∧
    exec .init t = .next t ∧
    exec .rstat t = .next { t with rspByte := 0x00, rspValid := true }) ∧
  (∀ (i : Instr) (s t : State), i ≠ .init → s.ERR = true → exec i s = .next t → t.ERR = true)

/-- R123 where the block is not full: the byte is XORed into state byte `offset` and into no other, `offset` moves on by one, and nothing else changes.
That the scratch lanes B, C and D, which R31 leaves unspecified, hold still is the model's choice (log entry 2), no rule's. -/
def Obligations.AbsorbXorsOneByteAndAdvances : Prop :=
  ∀ (s : State) (b : Byte), s.FIN = false → s.offset.toNat < 135 →
    ∃ A : Lanes,
      exec (.absorb b) s = .next { s with S := A, offset := s.offset + 1, rspValid := false } ∧
      (s.offset + 1).toNat = s.offset.toNat + 1 ∧
      ∀ k, memRead A k =
        if k = absorbPosition s then (memRead s.S k).map (· ^^^ b) else memRead s.S k

/-- R124: the ABSORB that writes byte 135 permutes the block in the same step and sets `offset` to 0; the scratch lanes are free. -/
def Obligations.AbsorbOfTheLastByteRunsKeccakF : Prop :=
  ∀ (s : State) (b : Byte), s.FIN = false → s.offset = 135 →
    ∃ (A : Lanes) (t : State),
      (∀ k, memRead A k = if k = 135 then (memRead s.S k).map (· ^^^ b) else memRead s.S k) ∧
      exec (.absorb b) s = .next t ∧
      EqualButScratch t
        { s with S := keccakF A, offset := 0, rspValid := false, busy := false, ir := 0 }

/-- R151, code 1: ABSORB with `FIN = 1` records its error, the first one being kept (R152), and changes nothing else (that the scratch lanes hold still too is log entry 2's choice). -/
def Obligations.AbsorbAfterFinalOnlyRecordsItsError : Prop :=
  ∀ (s : State) (b : Byte), s.FIN = true →
    exec (.absorb b) s =
      .next { s with rspValid := false, ERR := true, ECODE := if s.ERR then s.ECODE else 1 }

/-- R125: FINAL XORs 0x06 into byte `offset` and 0x80 into byte 135, applies KeccakF and sets FIN, `offset` unchanged; with `FIN = 1` it records its error and changes nothing else (that the scratch lanes hold still there too is log entry 2's choice). -/
def Obligations.FinalPadsPermutesAndFinalizes : Prop :=
  encode .final = 0x3000 ∧
  (∀ s : State, s.FIN = false → s.offset.toNat < Config.rateBytes →
    ∃ (P : Lanes) (t : State),
      (∀ k, memRead P k = (memRead s.S k).map fun v =>
        v ^^^ (if k = absorbPosition s then 0x06 else 0) ^^^ (if k = 135 then 0x80 else 0)) ∧
      exec .final s = .next t ∧
      EqualButScratch t
        { s with S := keccakF P, FIN := true, rspValid := false, busy := false, ir := 0 }) ∧
  (∀ s : State, s.FIN = true →
    exec .final s = .next { s with rspValid := false, ERR := true, ECODE := if s.ERR then s.ECODE else 2 })

/-- R126: at `offset = 135` the two XORs combine to 0x86 on one byte; below it they touch two different bytes; the cycles are the same, 25 by R176 and R180 (timing, not architectural: log entry 8). -/
def Obligations.PaddingXorsAreNotSpecialCased : Prop :=
  (∀ s : State, s.FIN = false → s.offset = 135 →
    ∃ P, padBlock s = some P ∧ commandCycles 0x3000 s = 25 ∧
      ∀ k, memRead P k = if k = 135 then (memRead s.S k).map (· ^^^ 0x86) else memRead s.S k) ∧
  (∀ s : State, s.FIN = false → s.offset.toNat < 135 →
    ∃ P, padBlock s = some P ∧ commandCycles 0x3000 s = 25 ∧
      ∀ k, memRead P k =
        if k = absorbPosition s then (memRead s.S k).map (· ^^^ 0x06)
        else if k = 135 then (memRead s.S k).map (· ^^^ 0x80) else memRead s.S k) ∧
  (0x06#8 ||| 0x80#8 = 0x86#8 ∧ 0x06#8 ^^^ 0x80#8 = 0x86#8)

/-- R127: RDIG responds with byte `i` of the state once `FIN = 1`, and otherwise records DIGEST_BEFORE_FINAL and responds 0x00; nothing else changes; an index of 32 or more is illegal and gives no response.
That the scratch lanes B, C and D, which R31 leaves unspecified, hold still is the model's choice (log entry 2), no rule's. -/
def Obligations.RdigSqueezesOneDigestByte : Prop :=
  (∀ i : BitVec 5, encode (.rdig i) = 0x4000 ||| i.zeroExtend 16) ∧
  (∀ (s : State) (i : BitVec 5), s.FIN = true →
    ∃ v, memRead s.S i.toNat = some v ∧
      exec (.rdig i) s = .next { s with rspByte := v, rspValid := true }) ∧
  (∀ (s : State) (i : BitVec 5), s.FIN = false →
    exec (.rdig i) s =
      .next { s with rspByte := 0x00, rspValid := true, ERR := true,
                     ECODE := if s.ERR then s.ECODE else 3 }) ∧
  (∀ (s : State) (w : CommandWord), w.toNat / 4096 = 4 → 32 ≤ w.toNat % 4096 →
    acceptWord w s =
      .next { s with rspValid := false, ERR := true, ECODE := if s.ERR then s.ECODE else 4 })

/-- R128, with the layout of R28: RSTAT responds with the status byte and changes nothing else.
That the scratch lanes B, C and D, which R31 leaves unspecified, hold still is the model's choice (log entry 2), no rule's. -/
def Obligations.RstatReadsTheStatusByte : Prop :=
  encode .rstat = 0x5000 ∧
  ∀ s : State, ∃ v : Byte,
    exec .rstat s = .next { s with rspByte := v, rspValid := true } ∧
    v.getLsbD 0 = s.FIN ∧ v.getLsbD 1 = s.ERR ∧ v.extractLsb' 2 3 = s.ECODE ∧ v.extractLsb' 5 3 = 0

/-- R129: ROFF responds with `offset`, in 0..135 wherever the invariants hold, and changes nothing else.
That the scratch lanes B, C and D, which R31 leaves unspecified, hold still is the model's choice (log entry 2), no rule's. -/
def Obligations.RoffReadsTheOffset : Prop :=
  encode .roff = 0x6000 ∧
  (∀ s : State, exec .roff s = .next { s with rspByte := s.offset, rspValid := true }) ∧
  (∀ s : State, Invariants s → ∃ t v, exec .roff s = .next t ∧ t.response = some v ∧ v.toNat ≤ 135)

/-! ### Errors (60_exceptions.md) -/

/-- R151 and R153: from no error, which code a word leaves, the legality of the word first. -/
def Obligations.ErrorCodesFollowTheTable : Prop :=
  ∀ (s t : State) (w : CommandWord), s.ERR = false → s.ECODE = 0 → acceptWord w s = .next t →
    t.ECODE =
      (if legal w = false then 4
       else if w.toNat / 4096 = 2 ∧ s.FIN = true then 1
       else if w.toNat / 4096 = 3 ∧ s.FIN = true then 2
       else if w.toNat / 4096 = 4 ∧ s.FIN = false then 3
       else 0) ∧
    (t.ERR = true ↔ t.ECODE ≠ 0)

/-- R154: a command that records an error leaves `S`, `offset`, `FIN` and, but for RDIG's 0x00, `rsp_byte` as they were (that the scratch lanes hold still too is log entry 2's choice). -/
def Obligations.ErrorsArePrecise : Prop :=
  ∀ (s t : State) (w : CommandWord), s.ERR = false → acceptWord w s = .next t → t.ERR = true →
    t = { s with ERR := true, ECODE := t.ECODE, rspValid := t.rspValid,
                 rspByte := if legal w = true ∧ w.toNat / 4096 = 4 then 0x00 else s.rspByte }

/-- R152 and R156: the first error is kept by every word but INIT's, by every other move of the host but its reset, by the completion of a permutation and by every edge of the clock that neither resets nor accepts INIT; INIT and reset clear it.
The host's moves are log entry 3's. -/
def Obligations.FirstErrorIsKeptUntilInit : Prop :=
  (∀ (s t : State) (w : CommandWord), s.ERR = true → w ≠ 0x1000 → acceptWord w s = .next t →
    t.ERR = true ∧ t.ECODE = s.ECODE) ∧
  (∀ (s t : State) (m : HostMove), s.ERR = true → m ≠ .command 0x1000 → m ≠ .reset → hostMove m s = .next t →
    t.ERR = true ∧ t.ECODE = s.ECODE) ∧
  (∀ s : State, (finishPermutation s).ERR = s.ERR ∧ (finishPermutation s).ECODE = s.ECODE) ∧
  (∀ (p : PortsIn) (s t : State), s.ERR = true → p.rst = false → ¬(accepts p s = true ∧ p.cmdWord = 0x1000) →
    tick p s = .next t → t.ERR = true ∧ t.ECODE = s.ECODE) ∧
  (∀ s : State, ∃ t, acceptWord 0x1000 s = .next t ∧ t.ERR = false ∧ t.ECODE = 0) ∧
  (∀ s : State, ∃ t, hostMove .reset s = .next t ∧ t.ERR = false ∧ t.ECODE = 0) ∧
  (∀ (p : PortsIn) (s : State), p.rst = true → ∃ t, tick p s = .next t ∧ t.ERR = false ∧ t.ECODE = 0)

/-- R155: a recorded error does not block: every word has the effect on `S`, `offset` and `FIN` it has with no error recorded, and the same response but for RSTAT's. -/
def Obligations.RecordedErrorDoesNotBlock : Prop :=
  ∀ (s t : State) (w : CommandWord), acceptWord w s = .next t →
    ∃ u, acceptWord w { s with ERR := false, ECODE := 0 } = .next u ∧
      u.S = t.S ∧ u.offset = t.offset ∧ u.FIN = t.FIN ∧ u.rspValid = t.rspValid ∧
      (w ≠ 0x5000 → u.rspByte = t.rspByte)

/-! ### Whole-engine rules -/

/-- R34, I2, and R134: while `FIN = 1`, no word but INIT's changes `S` or `offset`, or clears FIN. -/
def Obligations.FinalizedContextIsFixed : Prop :=
  ∀ (s t : State) (w : CommandWord), s.FIN = true → w ≠ 0x1000 → acceptWord w s = .next t →
    t.S = s.S ∧ t.offset = s.offset ∧ t.FIN = true

/-- R23: the capacity bytes change only through KeccakF, applied to a state whose capacity is the old one, or by INIT. -/
def Obligations.CapacityChangesOnlyThroughKeccakF : Prop :=
  ∀ (s t : State) (w : CommandWord), Invariants s → acceptWord w s = .next t →
    (∀ k, Config.rateBytes ≤ k → memRead t.S k = memRead s.S k) ∨
    (∃ A : Lanes, (∀ k, Config.rateBytes ≤ k → memRead A k = memRead s.S k) ∧ t.S = keccakF A) ∨
    (w = 0x1000 ∧ t.S = zeroLanes)

/-- R47 and R165: two engines that agree on the registers, and on the digest bytes once finalized, answer every session without a FINAL alike: no response carries anything of the capacity, of the rest of the rate, or of a state before FINAL. -/
def Obligations.ResponsesRevealOnlyTheDigest : Prop :=
  ∀ (ws : List CommandWord) (s t : State) (u : Session),
    (∀ w ∈ ws, w ≠ 0x3000) → AgreeToTheHost s t → Invariants s → runWords ws s = .next u →
    ∃ v, runWords ws t = .next v ∧ v.responses = u.responses

/-- R45: NOP, RSTAT, ROFF, and RDIG with `FIN = 1` leave the context and the error record as they are and give the same response when repeated; INIT is idempotent.
That the repeated command's state is the same in the scratch lanes B, C and D too, which R31 leaves unspecified, is the model's choice (log entry 2), no rule's. -/
def Obligations.ReadingCommandsAreRepeatable : Prop :=
  (∀ (i : Instr) (s t : State),
    (i = .nop ∨ i = .rstat ∨ i = .roff ∨ ((∃ k, i = .rdig k) ∧ s.FIN = true)) → exec i s = .next t →
    t.S = s.S ∧ t.offset = s.offset ∧ t.FIN = s.FIN ∧ t.ERR = s.ERR ∧ t.ECODE = s.ECODE ∧ exec i t = .next t) ∧
  (∀ s t : State, exec .init s = .next t → exec .init t = .next t)

/-- R53: a move at one engine's port is that engine's move alone, changes no other engine, depends on no other engine, even as to whether it answers, and moves at two engines' ports may be taken in either order. -/
def Obligations.EnginesShareNoMutableState : Prop :=
  (∀ (n : Nat) (k : Fin n) (m : HostMove) (sys sys' : Engines n), moveAt k m sys = .next sys' →
    hostMove m sys[k] = .next sys'[k] ∧ ∀ j : Fin n, j ≠ k → sys'[j] = sys[j]) ∧
  (∀ (n : Nat) (k : Fin n) (m : HostMove) (sys : Engines n) (t : State), hostMove m sys[k] = .next t →
    moveAt k m sys = .next (sys.set k t)) ∧
  (∀ (n : Nat) (j k : Fin n) (m q : HostMove) (sys a b : Engines n), j ≠ k →
    moveAt j m sys = .next a → moveAt k q a = .next b →
    ∃ c, moveAt k q sys = .next c ∧ moveAt j m c = .next b)

/-! ### The state byte space (10_state.md R22) -/

/-- R22: byte `8i + j` is bits `8j+7:8j` of lane `i`; a write changes that byte alone; there is no byte outside 0..199 (R40). -/
def Obligations.ByteViewOfTheLanes : Prop :=
  (∀ (A : Lanes) (i : Fin 25) (j : Nat), j < 8 →
    memRead A (8 * i.val + j) = some ((A[i] >>> (8 * j)).setWidth 8)) ∧
  (∀ (A : Lanes) (k : Nat) (v : Byte), k < 200 →
    ∃ A', memWrite A k v = some A' ∧ ∀ j, memRead A' j = if j = k then some v else memRead A j) ∧
  (∀ (A : Lanes) (k : Nat) (v : Byte), 200 ≤ k → memRead A k = none ∧ memWrite A k v = none) ∧
  (∀ A B : Lanes, (∀ k < 200, memRead A k = memRead B k) → A = B)

/-! ### Lane primitives and the permutation (40_lane_primitives.md, 41_permutation.md) -/

/-- R81, R82 and R83: ⊕, ∧ and ¬ are bitwise on all 64 bits, with the corner cases those rules give. -/
def Obligations.LaneOperationsAreBitwise : Prop :=
  ∀ (a b c : Lane),
    (∀ j, j < 64 →
      (laneXor a b).getLsbD j = (a.getLsbD j ^^ b.getLsbD j) ∧
      (laneAnd a b).getLsbD j = (a.getLsbD j && b.getLsbD j) ∧
      (laneNot a).getLsbD j = !a.getLsbD j) ∧
    laneXor a a = 0 ∧ laneXor a 0 = a ∧ laneXor a b = laneXor b a ∧
    laneXor (laneXor a b) c = laneXor a (laneXor b c) ∧
    laneAnd a 0 = 0 ∧ laneAnd a 0xFFFFFFFFFFFFFFFF = a ∧
    laneNot a = laneXor a 0xFFFFFFFFFFFFFFFF ∧ laneNot (laneNot a) = a

/-- R84: every bit of a rotation, its shift formula, and the identity at 0. -/
def Obligations.RotationMovesEveryBit : Prop :=
  ∀ (a : Lane) (r : Nat), r < 64 →
    (∀ j, j < 64 → (rotl64 a r).getLsbD j = a.getLsbD ((j + 64 - r) % 64)) ∧
    (rotl64 a r).toNat = (a.toNat * 2 ^ r) % 2 ^ 64 ||| a.toNat / 2 ^ (64 - r) ∧
    rotl64 a 0 = a

/-- R91: θ lane by lane, θ(0) = 0, its linearity, and that a state of even columns is unchanged. -/
def Obligations.ThetaIsItsFormulaAndLinear : Prop :=
  (∀ (A : Lanes) (x y : Coord),
    laneAt (theta A) x y =
      laneAt A x y ^^^
        ((laneAt A (x + 4) 0 ^^^ laneAt A (x + 4) 1 ^^^ laneAt A (x + 4) 2 ^^^ laneAt A (x + 4) 3 ^^^ laneAt A (x + 4) 4) ^^^
         rotl64 (laneAt A (x + 1) 0 ^^^ laneAt A (x + 1) 1 ^^^ laneAt A (x + 1) 2 ^^^ laneAt A (x + 1) 3 ^^^ laneAt A (x + 1) 4) 1)) ∧
  theta zeroLanes = zeroLanes ∧
  (∀ A B : Lanes, theta (ofCoords fun x y => laneAt A x y ^^^ laneAt B x y) =
    ofCoords fun x y => laneAt (theta A) x y ^^^ laneAt (theta B) x y) ∧
  (∀ A : Lanes, (∀ x : Coord, (thetaC A)[x] = 0) → theta A = A)

/-- R92, R93 and R94: the fused ρ∘π puts `rotl64(A[x,y], RHO[x][y])` at `(y, 2x+3y)`, is π after ρ, and writes each of the 25 positions exactly once. -/
def Obligations.FusedRhoPiIsPiAfterRho : Prop :=
  (∀ (A : Lanes) (x y : Coord), laneAt (rhoPi A) y (2 * x + 3 * y) = rotl64 (laneAt A x y) (RHO x y)) ∧
  (∀ A : Lanes, rhoPi A = pi (rho A)) ∧
  (∀ (A : Lanes) (x y : Coord), laneAt (pi A) y (2 * x + 3 * y) = laneAt A x y) ∧
  (∀ X Y : Coord, ∃ p : Coord × Coord, piTarget p.1 p.2 = (X, Y) ∧ ∀ q : Coord × Coord, piTarget q.1 q.2 = (X, Y) → q = p)

/-- R95: χ bit by bit, χ(0) = 0, that a row of all ones stays all ones, and that χ is not linear. -/
def Obligations.ChiCombinesEachRow : Prop :=
  (∀ (B : Lanes) (x y : Coord) (j : Nat), j < 64 →
    (laneAt (chi B) x y).getLsbD j =
      ((laneAt B x y).getLsbD j ^^ (!(laneAt B (x + 1) y).getLsbD j && (laneAt B (x + 2) y).getLsbD j))) ∧
  chi zeroLanes = zeroLanes ∧
  (∀ (B : Lanes) (y : Coord), (∀ x, laneAt B x y = 0xFFFFFFFFFFFFFFFF) → ∀ x, laneAt (chi B) x y = 0xFFFFFFFFFFFFFFFF) ∧
  (∃ A B : Lanes, chi (ofCoords fun x y => laneAt A x y ^^^ laneAt B x y) ≠
    ofCoords fun x y => laneAt (chi A) x y ^^^ laneAt (chi B) x y)

/-- R96: ι XORs `RC[ir]` into lane 0 and changes no other lane. -/
def Obligations.IotaChangesOnlyLaneZero : Prop :=
  ∀ (A : Lanes) (ir : Fin 24),
    laneAt (iota A ir) 0 0 = laneAt A 0 0 ^^^ RC[ir] ∧
    ∀ x y : Coord, (x, y) ≠ (0, 0) → laneAt (iota A ir) x y = laneAt A x y

/-- R90, R97 and R98: KeccakF is the 24 rounds in ascending order, each ι(χ(π(ρ(θ(A)))), ir). -/
def Obligations.KeccakFIsItsRoundsInOrder : Prop :=
  (∀ (A : Lanes) (ir : Fin 24), roundFn A ir = iota (chi (pi (rho (theta A)))) ir) ∧
  (∀ A : Lanes, keccakF A = (List.finRange 24).foldl roundFn A)

/-- R99 and R100: each entry of the table of round constants is what the LFSR generates. -/
def Obligations.RoundConstantsAreGenerated : Prop :=
  ∀ ir : Fin 24, (RC[ir]).toNat = generatedRC ir.val

/-- R101 and R102: each rotation offset is what the walk from (1,0) generates, (0,0) has 0, and the walk meets every other coordinate. -/
def Obligations.RotationOffsetsAreGenerated : Prop :=
  RHO 0 0 = 0 ∧
  (∀ t : Fin 24, RHO (rhoWalk t.val).1 (rhoWalk t.val).2 = rhoAmount t.val) ∧
  (∀ x y : Coord, (x, y) ≠ (0, 0) → ∃ t : Fin 24, rhoWalk t.val = (x, y))

/-- R106: KeccakF is a bijection on 1600-bit states. -/
def Obligations.KeccakFIsABijection : Prop := Function.Bijective keccakF

/-! ### The clock (70_reset_and_hazards.md) -/

/-- R44, R175, R176, R180: the clock completes the atomic step. From a ready engine, a word accepted at one edge and then any ports with `rst = 0`: after exactly the cycles of R180 the engine is ready and its state is the atomic step's, but for the scratch lanes; before that it is busy. -/
def Obligations.ClockCompletesTheAtomicStep : Prop :=
  ∀ (s t : State) (p : PortsIn) (ps : List PortsIn),
    Ready s → p.rst = false → p.cmdValid = true → (∀ q ∈ ps, q.rst = false) →
    ps.length + 1 = commandCycles p.cmdWord s → acceptWord p.cmdWord s = .next t →
    (∃ u, ticks (p :: ps) s = .next u ∧ u.busy = false ∧ EqualButScratch u t) ∧
    (∀ n < ps.length, ∃ v, ticks (p :: ps.take n) s = .next v ∧ v.busy = true)

/-- R176: while a permutation is in progress no command is accepted, and the command port has no effect. -/
def Obligations.BusyEngineIgnoresTheCommandPort : Prop :=
  ∀ (s : State) (p q : PortsIn), s.busy = true → p.rst = false → q.rst = false →
    (portsOut p s).cmdReady = false ∧ accepts p s = false ∧ tick p s = tick q s

/-- R180: the cycles of every word in every state. -/
def Obligations.CyclesFollowTheTimingTable : Prop :=
  ∀ (w : CommandWord) (s : State),
    commandCycles w s =
      if legal w = true ∧ s.FIN = false ∧ (w.toNat / 4096 = 3 ∨ (w.toNat / 4096 = 2 ∧ s.offset = 135)) then 1 + 24 else 1

/-- R179: constant time. Two ready engines with the same FIN and `offset`, given words of the same opcode and legality, are busy in the same cycles, whatever the bytes and the states, and whatever the command port shows meanwhile. -/
def Obligations.TimingIsIndependentOfData : Prop :=
  ∀ (s t a b : State) (p q : PortsIn) (ps qs : List PortsIn),
    Ready s → Ready t → s.FIN = t.FIN → s.offset = t.offset →
    p.rst = false → q.rst = false → p.cmdValid = true → q.cmdValid = true →
    opField p.cmdWord = opField q.cmdWord → legal p.cmdWord = legal q.cmdWord →
    (∀ r ∈ ps, r.rst = false) → (∀ r ∈ qs, r.rst = false) →
    ps.length = qs.length → ps.length < commandCycles p.cmdWord s →
    ticks (p :: ps) s = .next a → ticks (q :: qs) t = .next b → a.busy = b.busy ∧ a.ir = b.ir

/-- R177: `rsp_valid` is 1 in the cycle after an accepted RDIG, RSTAT or ROFF and after no other word, for that one cycle, and `rsp_byte` keeps its value until the next response. -/
def Obligations.ResponseIsValidForOneCycle : Prop :=
  (∀ (s t : State) (p : PortsIn), accepts p s = true → tick p s = .next t →
    (t.rspValid = true ↔
      legal p.cmdWord = true ∧ (p.cmdWord.toNat / 4096 = 4 ∨ p.cmdWord.toNat / 4096 = 5 ∨ p.cmdWord.toNat / 4096 = 6)) ∧
    (t.rspValid = false → t.rspByte = s.rspByte)) ∧
  (∀ (s t : State) (p : PortsIn), accepts p s = false → p.rst = false → tick p s = .next t →
    t.rspValid = false ∧ t.rspByte = s.rspByte)

/-- R34 at the clock's level: from every state with the invariants, whatever stands at the ports, an edge gives a next state with the invariants. -/
def Obligations.EveryEdgeKeepsTheInvariants : Prop :=
  ∀ (p : PortsIn) (s : State), Invariants s → ∃ t, tick p s = .next t ∧ Invariants t

/-! ### Sessions (42_sponge_commands.md R130 to R132) -/

/-- R130: a run of words without INIT and FINAL into an empty block, `m` being the bytes of its ABSORBs, leaves `offset = n mod 136` and the sponge absorption of the whole blocks of `m` with the rest XORed in, after `n div 136` permutations, whatever other words, illegal ones among them, stand between; ABSORBs alone give no response and no error.
The cycles, one for each word and 24 for each permutation, are R180's count (timing, not architectural: log entry 8). -/
def Obligations.AbsorbedStringIsTheSpongeAbsorption : Prop :=
  ∀ (s : State) (ws : List CommandWord), s.FIN = false → s.offset = 0 →
    (∀ w ∈ ws, w ≠ 0x1000 ∧ w ≠ 0x3000) →
    ∃ u, runWords ws s = .next u ∧
      u.state.offset.toNat = (absorbedBytes ws).length % 136 ∧
      u.state.S =
        xorBytes (absorbBlocks s.S (absorbedBytes ws) ((absorbedBytes ws).length / 136)) 0
          ((absorbedBytes ws).drop (136 * ((absorbedBytes ws).length / 136))) ∧
      u.state.FIN = false ∧
      u.cycles = ws.length + 24 * ((absorbedBytes ws).length / 136) ∧
      (∀ m : List Byte, ws = m.map (fun b => encode (.absorb b)) →
        absorbedBytes ws = m ∧ u.responses = [] ∧
        u.state.ERR = s.ERR ∧ u.state.ECODE = s.ECODE ∧ u.state.rspByte = s.rspByte)

/-- R48, R175 and R132: the steps of a ready engine whose host is to present `ws` and then `vs` are the session of those words.
After as many steps as `ws` has words the engine is in the state `ws` leaves, with `vs` still to come, and has given the responses of `ws`; after the rest it has given those of `vs` from that state; so it matters nowhere where a message is cut.
The host's moves as a list are log entry 3's. -/
def Obligations.SessionIsItsPartsInOrder : Prop :=
  ∀ (ws vs : List CommandWord) (rest : List HostMove) (s : State),
    Ready s → s.inbox = (ws ++ vs).map .command ++ rest →
    ∃ u v : Session,
      runWords ws { s with inbox := rest } = .next u ∧ runWords vs u.state = .next v ∧
      runSteps ws.length s = .next ({ u.state with inbox := vs.map .command ++ rest }, u.responses) ∧
      runSteps (ws.length + vs.length) s = .next (v.state, u.responses ++ v.responses) ∧
      runWords (ws ++ vs) { s with inbox := rest } = .next ⟨v.state, u.responses ++ v.responses, u.cycles + v.cycles⟩ ∧
      Ready v.state

/-- R131: from every state, `HASH m` returns the 32 bytes of SHA3-256 of `m`, leaves no error, and applies `n div 136 + 1` permutations, which with R180 is its count of cycles. -/
def Obligations.HashProgramReturnsSha3Digest : Prop :=
  ∀ (s : State) (m : List Byte),
    ∃ u, runWords (Line.hash (m.map BitVec.toNat)).words s = .next u ∧
      u.responses = sha3_256 m ∧
      u.state.ERR = false ∧ u.state.FIN = true ∧ u.state.offset.toNat = m.length % 136 ∧
      u.cycles = 1 + m.length + 1 + 32 + 24 * (m.length / 136 + 1)

/-! ### The assembler (30_encoding.md R67 to R69) -/

/-- R69: assembling the printed text of any word gives back the same word. -/
def Obligations.DisassemblyAssemblesBack : Prop :=
  ∀ w : CommandWord, assembleText [disassemble w] = some [w]

/-- R67: a line, a program or a text with an operand out of range assembles to nothing, and one without `.word` assembles to legal words alone. -/
def Obligations.AssembledWordsAreLegal : Prop :=
  (∀ b : Nat, 256 ≤ b → (Line.absorb b).assemble = none) ∧
  (∀ i : Nat, 32 ≤ i → (Line.rdig i).assemble = none) ∧
  (∀ (bs : List Nat) (b : Nat), b ∈ bs → 256 ≤ b → (Line.absorbs bs).assemble = none ∧ (Line.hash bs).assemble = none) ∧
  (∀ (l : Line) (ws : List CommandWord), (∀ w, l ≠ .word w) → l.assemble = some ws → ∀ w ∈ ws, legal w = true) ∧
  (∀ (ls : List Line) (l : Line), l ∈ ls → l.assemble = none → assembleLines ls = none) ∧
  (∀ (ls : List Line) (ws : List CommandWord), (∀ l ∈ ls, ∀ w, l ≠ .word w) → assembleLines ls = some ws →
    ∀ w ∈ ws, legal w = true) ∧
  (∀ (src : List (List Char)) (ls : List Line) (l : Line), parseLines src = some ls → l ∈ ls → l.assemble = none →
    assembleText src = none) ∧
  (∀ (src : List (List Char)) (ls : List Line) (ws : List CommandWord), parseLines src = some ls →
    (∀ l ∈ ls, ∀ w, l ≠ .word w) → assembleText src = some ws → ∀ w ∈ ws, legal w = true)

/-- R68: each pseudo-instruction assembles to its expansion; an empty ABSORBS to nothing. -/
def Obligations.PseudoInstructionsExpand : Prop :=
  (∀ bs : List Nat, (Line.absorbs bs).assemble = assembleLines (bs.map .absorb)) ∧
  (Line.rdigest.assemble = assembleLines ((List.range 32).map .rdig)) ∧
  (∀ m : List Nat, (Line.hash m).assemble = assembleLines [.init, .absorbs m, .final, .rdigest]) ∧
  (∀ n : Nat, (Line.zeros n).assemble = assembleLines (List.replicate n (.absorb 0x00))) ∧
  (Line.absorbs []).assemble = some []

/-! ### A permutation in progress (10_state.md R30, 70_reset_and_hazards.md R175) -/

/-- What a step does with a permutation in progress before the host's next word (R175, R182; log entry 7): from round `ir` it applies the rounds that are left, `ir` to 23, and is at rest, everything else but `rsp_valid` and the scratch lanes unchanged.
That is what the clock reaches after exactly `24 - ir` edges without a reset, whatever stands at the command port, being busy at every edge before (R104, R176; log entry 8).
Where none is in progress it does nothing. -/
def Obligations.FinishingIsTheRestOfTheRounds : Prop :=
  (∀ s : State, s.busy = false → finishPermutation s = s) ∧
  (∀ s : State, s.busy = true →
    EqualButScratch (finishPermutation s)
      { s with S := ((List.finRange 24).drop s.ir.val).foldl roundFn s.S, rspValid := false, busy := false, ir := 0 }) ∧
  (∀ (s : State) (ps : List PortsIn), s.busy = true → (∀ q ∈ ps, q.rst = false) → ps.length = 24 - s.ir.val →
    (∃ u, ticks ps s = .next u ∧ EqualButScratch u (finishPermutation s)) ∧
    (∀ n < ps.length, ∃ v, ticks (ps.take n) s = .next v ∧ v.busy = true))
end

