-- ==== Sys2Proof/Laws/Assembler.lean ====
section
/-! SUPPORT. The digits of the assembler's numbers: what is printed is read back. -/

namespace Sys2Proof

/-- A printed hex digit reads as its value. -/
@[simp] theorem digitValue_hexDigit (d : BitVec 4) : digitValue (hexDigit d) = some d.toNat := by
  revert d; decide +kernel

/-- A printed digit below 16 reads as its value. -/
theorem digitValue_digitChar {n : Nat} (h : n < 16) : digitValue (digitChar n) = some n := by
  have := digitValue_hexDigit (BitVec.ofNat 4 n)
  simpa [hexDigit, Nat.mod_eq_of_lt h] using this

/-- A printed digit is neither a blank nor the start of a comment. -/
theorem inMnemonic_hexDigit (d : BitVec 4) : inMnemonic (hexDigit d) = true := by
  revert d; decide +kernel

end Sys2Proof
end

