-- ==== Sys2Proof/Laws/Memory.lean ====
section
/-! SUPPORT. The state byte space: a read after a write, the bytes determine the lanes, and the canonical list of cells. -/

namespace Sys2Proof.Machine

/-- Bit `i` of a byte of a lane. -/
theorem laneByte_getLsbD (v : Lane) (j i : Nat) (hi : i < 8) : (laneByte v j).getLsbD i = v.getLsbD (8 * j + i) := by
  simp [laneByte, hi]

/-- Bit `i` of a lane with one byte replaced (R22). -/
theorem setLaneByte_getLsbD (v : Lane) (j : Nat) (b : Byte) (i : Nat) (hi : i < 64) :
    (setLaneByte v j b).getLsbD i = if 8 * j ≤ i ∧ i < 8 * j + 8 then b.getLsbD (i - 8 * j) else v.getLsbD i := by
  have hff : ∀ n, n < 64 → BitVec.getLsbD (255 : Lane) n = decide (n < 8) := by decide
  simp only [setLaneByte, BitVec.getLsbD_or, BitVec.getLsbD_and, BitVec.getLsbD_not, BitVec.getLsbD_shiftLeft,
    BitVec.getLsbD_setWidth, hi, decide_true, Bool.true_and]
  by_cases h1 : i < 8 * j
  · have h2 : ¬(8 * j ≤ i ∧ i < 8 * j + 8) := by omega
    simp [h1, h2]
  · have h4 : i - 8 * j < 64 := by omega
    rw [hff _ h4]
    by_cases h3 : i < 8 * j + 8
    · have h2 : 8 * j ≤ i ∧ i < 8 * j + 8 := by omega
      have h5 : i - 8 * j < 8 := by omega
      simp [h1, h2, h4, h5]
    · have h2 : ¬(8 * j ≤ i ∧ i < 8 * j + 8) := by omega
      have h5 : ¬(i - 8 * j < 8) := by omega
      have h6 : b.getLsbD (i - 8 * j) = false := BitVec.getLsbD_of_ge _ _ (by omega)
      simp [h1, h2, h5, h6]

/-- The byte just written reads back, and the lane's other bytes are unchanged (R22). -/
theorem laneByte_setLaneByte (v : Lane) (b : Byte) (j m : Nat) (hj : j < 8) (hm : m < 8) :
    laneByte (setLaneByte v j b) m = if m = j then b else laneByte v m := by
  apply BitVec.eq_of_getLsbD_eq
  intro i hi
  rw [laneByte_getLsbD _ _ _ hi, setLaneByte_getLsbD _ _ _ _ (by omega)]
  by_cases h : m = j
  · subst h
    have h1 : 8 * m ≤ 8 * m + i ∧ 8 * m + i < 8 * m + 8 := by omega
    simp [h1]
  · have h1 : ¬(8 * j ≤ 8 * m + i ∧ 8 * m + i < 8 * j + 8) := by omega
    rw [if_neg h1, if_neg h, laneByte_getLsbD _ _ _ hi]

/-- A byte reads exactly where the space has one (R40). -/
theorem memRead_isSome (A : Lanes) (k : Nat) : (memRead A k).isSome ↔ k < 200 := by
  unfold memRead; split <;> simp_all

theorem memRead_of_ge (A : Lanes) {k : Nat} (h : 200 ≤ k) : memRead A k = none := by
  unfold memRead; rw [dif_neg (by omega)]

theorem memRead_of_lt (A : Lanes) {k : Nat} (h : k < 200) :
    memRead A k = some (laneByte (A[k / 8]'(by omega)) (k % 8)) := by
  unfold memRead; rw [dif_pos h]

/-- A write answers exactly where the space has a byte (R40). -/
theorem memWrite_isSome (A : Lanes) (k : Nat) (b : Byte) : (memWrite A k b).isSome ↔ k < 200 := by
  unfold memWrite; split <;> simp_all

/-- What a write does: the byte reads back and every other byte reads as before (R22). -/
theorem memRead_memWrite {A A' : Lanes} {k : Nat} {b : Byte} (h : memWrite A k b = some A') (j : Nat) :
    memRead A' j = if j = k then some b else memRead A j := by
  have hk : k < 200 := (memWrite_isSome A k b).1 (by simp [h])
  unfold memWrite at h
  rw [dif_pos hk] at h
  obtain rfl := Option.some.inj h
  by_cases hj : j < 200
  · rw [memRead_of_lt _ hj, memRead_of_lt _ hj, Vector.getElem_set]
    by_cases hd : k / 8 = j / 8
    · rw [if_pos hd, laneByte_setLaneByte _ _ _ _ (by omega) (by omega)]
      by_cases hjk : j = k
      · subst hjk; simp
      · have : ¬(j % 8 = k % 8) := by omega
        simp [this, hjk, hd]
    · have : j ≠ k := by rintro rfl; exact hd rfl
      simp [hd, this]
  · have : j ≠ k := by omega
    rw [memRead_of_ge _ (by omega), memRead_of_ge _ (by omega), if_neg this]

/-- The one way a byte is modified, whole: it answers where the space has the byte (R14, R22). -/
theorem memXor_spec (A : Lanes) {k : Nat} (hk : k < 200) (b : Byte) :
    ∃ A', memXor A k b = some A' ∧
      ∀ j, memRead A' j = if j = k then (memRead A j).map (· ^^^ b) else memRead A j := by
  obtain ⟨old, hold⟩ := Option.isSome_iff_exists.1 ((memRead_isSome A k).2 hk)
  obtain ⟨A', hA'⟩ := Option.isSome_iff_exists.1 ((memWrite_isSome A k (old ^^^ b)).2 hk)
  refine ⟨A', by simp [memXor, hold, hA'], fun j => ?_⟩
  rw [memRead_memWrite hA']
  split
  · next h => subst h; simp [hold]
  · rfl

/-- Where the space has no byte, nothing is modified (R40). -/
theorem memXor_of_ge (A : Lanes) {k : Nat} (hk : 200 ≤ k) (b : Byte) : memXor A k b = none := by
  simp [memXor, memRead_of_ge A hk]

/-- The 200 bytes are another reading of the same 1600 bits (R22). -/
theorem lanes_ext_bytes {A B : Lanes} (h : ∀ k, k < 200 → memRead A k = memRead B k) : A = B := by
  apply Vector.ext
  intro i hi
  apply BitVec.eq_of_getLsbD_eq
  intro n hn
  have hk : 8 * i + n / 8 < 200 := by omega
  have e := h _ hk
  rw [memRead_of_lt _ hk, memRead_of_lt _ hk] at e
  have e' := congrArg (·.getLsbD (n % 8)) (Option.some.inj e)
  simp only [laneByte_getLsbD _ _ _ (show n % 8 < 8 by omega)] at e'
  have h1 : (8 * i + n / 8) / 8 = i := by omega
  have h2 : 8 * ((8 * i + n / 8) % 8) + n % 8 = n := by omega
  simpa only [h1, h2] using e'

@[simp] theorem memRead_zeroLanes {k : Nat} (h : k < 200) : memRead zeroLanes k = some 0 := by
  rw [memRead_of_lt _ h]; simp [zeroLanes, laneByte]

/-- The canonical form holds of every file's cells (log entry 6). -/
theorem Memory.cells_wf (A : Lanes) : Memory.wf (Memory.cells A) := by
  have key : ∀ k c, ((memRead A k).bind fun b => if b = 0 then none else some (k, b)) = some c →
      c.1 = k ∧ k < 200 ∧ c.2 ≠ 0 := by
    intro k c h
    obtain ⟨b, hb, hc⟩ := Option.bind_eq_some_iff.1 h
    have hk := (memRead_isSome A k).1 (by simp [hb])
    split at hc
    · cases hc
    · next hne => cases hc; exact ⟨rfl, hk, hne⟩
  constructor
  · unfold Memory.cells
    rw [List.pairwise_filterMap]
    refine List.Pairwise.imp ?_ (List.pairwise_lt_range (n := 200))
    intro a b hab c hc d hd
    rw [(key a c hc).1, (key b d hd).1]
    exact hab
  · intro c hc
    obtain ⟨k, _, hk⟩ := List.mem_filterMap.1 hc
    obtain ⟨h1, h2, h3⟩ := key k c hk
    exact ⟨h1 ▸ h2, h3⟩

/-- Reset memory lists nothing. -/
theorem Memory.cells_reset : Memory.cells State.reset.S = [] := by
  unfold Memory.cells
  rw [List.filterMap_eq_nil_iff]
  intro k hk
  have : memRead State.reset.S k = some 0 := memRead_zeroLanes (List.mem_range.1 hk)
  simp [this]

end Sys2Proof.Machine
end

