-- ==== Sys2Proof/Laws/State.lean ====
section
/-! SUPPORT. One lemma for each field of State under each update of Ops.lean and Flags.lean, so that no proof unfolds a record update. -/

namespace Sys2Proof.Machine

variable (s : State)

/-! ### respond -/

@[simp] theorem respond_S (v : Byte) : (respond v s).S = s.S := rfl
@[simp] theorem respond_offset (v : Byte) : (respond v s).offset = s.offset := rfl
@[simp] theorem respond_FIN (v : Byte) : (respond v s).FIN = s.FIN := rfl
@[simp] theorem respond_ERR (v : Byte) : (respond v s).ERR = s.ERR := rfl
@[simp] theorem respond_ECODE (v : Byte) : (respond v s).ECODE = s.ECODE := rfl
@[simp] theorem respond_rspByte (v : Byte) : (respond v s).rspByte = v := rfl
@[simp] theorem respond_rspValid (v : Byte) : (respond v s).rspValid = true := rfl
@[simp] theorem respond_busy (v : Byte) : (respond v s).busy = s.busy := rfl
@[simp] theorem respond_ir (v : Byte) : (respond v s).ir = s.ir := rfl
@[simp] theorem respond_B (v : Byte) : (respond v s).B = s.B := rfl
@[simp] theorem respond_C (v : Byte) : (respond v s).C = s.C := rfl
@[simp] theorem respond_D (v : Byte) : (respond v s).D = s.D := rfl
@[simp] theorem respond_inbox (v : Byte) : (respond v s).inbox = s.inbox := rfl
@[simp] theorem respond_draws (v : Byte) : (respond v s).draws = s.draws := rfl

/-! ### noResponse -/

@[simp] theorem noResponse_S : (noResponse s).S = s.S := rfl
@[simp] theorem noResponse_offset : (noResponse s).offset = s.offset := rfl
@[simp] theorem noResponse_FIN : (noResponse s).FIN = s.FIN := rfl
@[simp] theorem noResponse_ERR : (noResponse s).ERR = s.ERR := rfl
@[simp] theorem noResponse_ECODE : (noResponse s).ECODE = s.ECODE := rfl
@[simp] theorem noResponse_rspByte : (noResponse s).rspByte = s.rspByte := rfl
@[simp] theorem noResponse_rspValid : (noResponse s).rspValid = false := rfl
@[simp] theorem noResponse_busy : (noResponse s).busy = s.busy := rfl
@[simp] theorem noResponse_ir : (noResponse s).ir = s.ir := rfl
@[simp] theorem noResponse_B : (noResponse s).B = s.B := rfl
@[simp] theorem noResponse_C : (noResponse s).C = s.C := rfl
@[simp] theorem noResponse_D : (noResponse s).D = s.D := rfl
@[simp] theorem noResponse_inbox : (noResponse s).inbox = s.inbox := rfl
@[simp] theorem noResponse_draws : (noResponse s).draws = s.draws := rfl

/-! ### raiseError -/

@[simp] theorem raiseError_S (e : ErrorName) : (raiseError e s).S = s.S := by unfold raiseError; split <;> simp_all
@[simp] theorem raiseError_offset (e : ErrorName) : (raiseError e s).offset = s.offset := by unfold raiseError; split <;> simp_all
@[simp] theorem raiseError_FIN (e : ErrorName) : (raiseError e s).FIN = s.FIN := by unfold raiseError; split <;> simp_all
@[simp] theorem raiseError_ERR (e : ErrorName) : (raiseError e s).ERR = true := by unfold raiseError; split <;> simp_all
@[simp] theorem raiseError_ECODE (e : ErrorName) : (raiseError e s).ECODE = if s.ERR then s.ECODE else e.code := by unfold raiseError; split <;> simp_all
@[simp] theorem raiseError_rspByte (e : ErrorName) : (raiseError e s).rspByte = s.rspByte := by unfold raiseError; split <;> simp_all
@[simp] theorem raiseError_rspValid (e : ErrorName) : (raiseError e s).rspValid = s.rspValid := by unfold raiseError; split <;> simp_all
@[simp] theorem raiseError_busy (e : ErrorName) : (raiseError e s).busy = s.busy := by unfold raiseError; split <;> simp_all
@[simp] theorem raiseError_ir (e : ErrorName) : (raiseError e s).ir = s.ir := by unfold raiseError; split <;> simp_all
@[simp] theorem raiseError_B (e : ErrorName) : (raiseError e s).B = s.B := by unfold raiseError; split <;> simp_all
@[simp] theorem raiseError_C (e : ErrorName) : (raiseError e s).C = s.C := by unfold raiseError; split <;> simp_all
@[simp] theorem raiseError_D (e : ErrorName) : (raiseError e s).D = s.D := by unfold raiseError; split <;> simp_all
@[simp] theorem raiseError_inbox (e : ErrorName) : (raiseError e s).inbox = s.inbox := by unfold raiseError; split <;> simp_all
@[simp] theorem raiseError_draws (e : ErrorName) : (raiseError e s).draws = s.draws := by unfold raiseError; split <;> simp_all

/-! ### clearError -/

@[simp] theorem clearError_S : (clearError s).S = s.S := rfl
@[simp] theorem clearError_offset : (clearError s).offset = s.offset := rfl
@[simp] theorem clearError_FIN : (clearError s).FIN = s.FIN := rfl
@[simp] theorem clearError_ERR : (clearError s).ERR = false := rfl
@[simp] theorem clearError_ECODE : (clearError s).ECODE = 0 := rfl
@[simp] theorem clearError_rspByte : (clearError s).rspByte = s.rspByte := rfl
@[simp] theorem clearError_rspValid : (clearError s).rspValid = s.rspValid := rfl
@[simp] theorem clearError_busy : (clearError s).busy = s.busy := rfl
@[simp] theorem clearError_ir : (clearError s).ir = s.ir := rfl
@[simp] theorem clearError_B : (clearError s).B = s.B := rfl
@[simp] theorem clearError_C : (clearError s).C = s.C := rfl
@[simp] theorem clearError_D : (clearError s).D = s.D := rfl
@[simp] theorem clearError_inbox : (clearError s).inbox = s.inbox := rfl
@[simp] theorem clearError_draws : (clearError s).draws = s.draws := rfl

/-! ### redrawScratch -/

@[simp] theorem redrawScratch_S : (redrawScratch s).S = s.S := rfl
@[simp] theorem redrawScratch_offset : (redrawScratch s).offset = s.offset := rfl
@[simp] theorem redrawScratch_FIN : (redrawScratch s).FIN = s.FIN := rfl
@[simp] theorem redrawScratch_ERR : (redrawScratch s).ERR = s.ERR := rfl
@[simp] theorem redrawScratch_ECODE : (redrawScratch s).ECODE = s.ECODE := rfl
@[simp] theorem redrawScratch_rspByte : (redrawScratch s).rspByte = s.rspByte := rfl
@[simp] theorem redrawScratch_rspValid : (redrawScratch s).rspValid = s.rspValid := rfl
@[simp] theorem redrawScratch_busy : (redrawScratch s).busy = s.busy := rfl
@[simp] theorem redrawScratch_ir : (redrawScratch s).ir = s.ir := rfl
@[simp] theorem redrawScratch_inbox : (redrawScratch s).inbox = s.inbox := rfl
@[simp] theorem redrawScratch_draws : (redrawScratch s).draws = s.draws + 35 := rfl

/-! ### permute -/

@[simp] theorem permute_S : (permute s).S = keccakF s.S := rfl
@[simp] theorem permute_offset : (permute s).offset = s.offset := rfl
@[simp] theorem permute_FIN : (permute s).FIN = s.FIN := rfl
@[simp] theorem permute_ERR : (permute s).ERR = s.ERR := rfl
@[simp] theorem permute_ECODE : (permute s).ECODE = s.ECODE := rfl
@[simp] theorem permute_rspByte : (permute s).rspByte = s.rspByte := rfl
@[simp] theorem permute_rspValid : (permute s).rspValid = s.rspValid := rfl
@[simp] theorem permute_busy : (permute s).busy = false := rfl
@[simp] theorem permute_ir : (permute s).ir = 0 := rfl
@[simp] theorem permute_inbox : (permute s).inbox = s.inbox := rfl
@[simp] theorem permute_draws : (permute s).draws = s.draws + 35 := rfl

/-! ### startPermutation -/

@[simp] theorem startPermutation_S : (startPermutation s).S = s.S := rfl
@[simp] theorem startPermutation_offset : (startPermutation s).offset = s.offset := rfl
@[simp] theorem startPermutation_FIN : (startPermutation s).FIN = s.FIN := rfl
@[simp] theorem startPermutation_ERR : (startPermutation s).ERR = s.ERR := rfl
@[simp] theorem startPermutation_ECODE : (startPermutation s).ECODE = s.ECODE := rfl
@[simp] theorem startPermutation_rspByte : (startPermutation s).rspByte = s.rspByte := rfl
@[simp] theorem startPermutation_rspValid : (startPermutation s).rspValid = s.rspValid := rfl
@[simp] theorem startPermutation_busy : (startPermutation s).busy = true := rfl
@[simp] theorem startPermutation_ir : (startPermutation s).ir = 0 := rfl
@[simp] theorem startPermutation_B : (startPermutation s).B = s.B := rfl
@[simp] theorem startPermutation_C : (startPermutation s).C = s.C := rfl
@[simp] theorem startPermutation_D : (startPermutation s).D = s.D := rfl
@[simp] theorem startPermutation_inbox : (startPermutation s).inbox = s.inbox := rfl
@[simp] theorem startPermutation_draws : (startPermutation s).draws = s.draws := rfl

/-! ### roundCycle -/

@[simp] theorem roundCycle_S : (roundCycle s).S = roundFn s.S s.ir := rfl
@[simp] theorem roundCycle_offset : (roundCycle s).offset = s.offset := rfl
@[simp] theorem roundCycle_FIN : (roundCycle s).FIN = s.FIN := rfl
@[simp] theorem roundCycle_ERR : (roundCycle s).ERR = s.ERR := rfl
@[simp] theorem roundCycle_ECODE : (roundCycle s).ECODE = s.ECODE := rfl
@[simp] theorem roundCycle_rspByte : (roundCycle s).rspByte = s.rspByte := rfl
@[simp] theorem roundCycle_rspValid : (roundCycle s).rspValid = false := rfl
@[simp] theorem roundCycle_busy : (roundCycle s).busy = decide (s.ir ≠ 23) := rfl
@[simp] theorem roundCycle_ir : (roundCycle s).ir = if s.ir = 23 then 0 else s.ir + 1 := rfl
@[simp] theorem roundCycle_inbox : (roundCycle s).inbox = s.inbox := rfl
@[simp] theorem roundCycle_draws : (roundCycle s).draws = s.draws + 35 := rfl

/-! ### finishPermutation -/

@[simp] theorem finishPermutation_S : (finishPermutation s).S = if s.busy then rounds (24 - s.ir.val) s.ir.val s.S else s.S := by unfold finishPermutation; split <;> simp_all [redrawScratch]
@[simp] theorem finishPermutation_offset : (finishPermutation s).offset = s.offset := by unfold finishPermutation; split <;> simp_all [redrawScratch]
@[simp] theorem finishPermutation_FIN : (finishPermutation s).FIN = s.FIN := by unfold finishPermutation; split <;> simp_all [redrawScratch]
@[simp] theorem finishPermutation_ERR : (finishPermutation s).ERR = s.ERR := by unfold finishPermutation; split <;> simp_all [redrawScratch]
@[simp] theorem finishPermutation_ECODE : (finishPermutation s).ECODE = s.ECODE := by unfold finishPermutation; split <;> simp_all [redrawScratch]
@[simp] theorem finishPermutation_rspByte : (finishPermutation s).rspByte = s.rspByte := by unfold finishPermutation; split <;> simp_all [redrawScratch]
@[simp] theorem finishPermutation_rspValid : (finishPermutation s).rspValid = if s.busy then false else s.rspValid := by unfold finishPermutation; split <;> simp_all [redrawScratch]
@[simp] theorem finishPermutation_busy : (finishPermutation s).busy = false := by unfold finishPermutation; split <;> simp_all [redrawScratch]
@[simp] theorem finishPermutation_ir : (finishPermutation s).ir = if s.busy then 0 else s.ir := by unfold finishPermutation; split <;> simp_all [redrawScratch]
@[simp] theorem finishPermutation_inbox : (finishPermutation s).inbox = s.inbox := by unfold finishPermutation; split <;> simp_all [redrawScratch]

/-! ### resetEngine -/

@[simp] theorem resetEngine_S : (resetEngine s).S = zeroLanes := rfl
@[simp] theorem resetEngine_offset : (resetEngine s).offset = 0 := rfl
@[simp] theorem resetEngine_FIN : (resetEngine s).FIN = false := rfl
@[simp] theorem resetEngine_ERR : (resetEngine s).ERR = false := rfl
@[simp] theorem resetEngine_ECODE : (resetEngine s).ECODE = 0 := rfl
@[simp] theorem resetEngine_rspByte : (resetEngine s).rspByte = 0 := rfl
@[simp] theorem resetEngine_rspValid : (resetEngine s).rspValid = false := rfl
@[simp] theorem resetEngine_busy : (resetEngine s).busy = false := rfl
@[simp] theorem resetEngine_ir : (resetEngine s).ir = 0 := rfl
@[simp] theorem resetEngine_inbox : (resetEngine s).inbox = s.inbox := rfl
@[simp] theorem resetEngine_draws : (resetEngine s).draws = s.draws + 35 := rfl

/-! ### idleCycle -/

@[simp] theorem idleCycle_S : (idleCycle s).S = s.S := rfl
@[simp] theorem idleCycle_offset : (idleCycle s).offset = s.offset := rfl
@[simp] theorem idleCycle_FIN : (idleCycle s).FIN = s.FIN := rfl
@[simp] theorem idleCycle_ERR : (idleCycle s).ERR = s.ERR := rfl
@[simp] theorem idleCycle_ECODE : (idleCycle s).ECODE = s.ECODE := rfl
@[simp] theorem idleCycle_rspByte : (idleCycle s).rspByte = s.rspByte := rfl
@[simp] theorem idleCycle_rspValid : (idleCycle s).rspValid = false := rfl
@[simp] theorem idleCycle_busy : (idleCycle s).busy = s.busy := rfl
@[simp] theorem idleCycle_ir : (idleCycle s).ir = s.ir := rfl
@[simp] theorem idleCycle_B : (idleCycle s).B = s.B := rfl
@[simp] theorem idleCycle_C : (idleCycle s).C = s.C := rfl
@[simp] theorem idleCycle_D : (idleCycle s).D = s.D := rfl
@[simp] theorem idleCycle_inbox : (idleCycle s).inbox = s.inbox := rfl
@[simp] theorem idleCycle_draws : (idleCycle s).draws = s.draws := rfl

/-! ### newContext -/

@[simp] theorem newContext_S : (newContext s).S = zeroLanes := rfl
@[simp] theorem newContext_offset : (newContext s).offset = 0 := rfl
@[simp] theorem newContext_FIN : (newContext s).FIN = false := rfl
@[simp] theorem newContext_ERR : (newContext s).ERR = false := rfl
@[simp] theorem newContext_ECODE : (newContext s).ECODE = 0 := rfl
@[simp] theorem newContext_rspByte : (newContext s).rspByte = s.rspByte := rfl
@[simp] theorem newContext_rspValid : (newContext s).rspValid = s.rspValid := rfl
@[simp] theorem newContext_busy : (newContext s).busy = s.busy := rfl
@[simp] theorem newContext_ir : (newContext s).ir = s.ir := rfl
@[simp] theorem newContext_B : (newContext s).B = s.B := rfl
@[simp] theorem newContext_C : (newContext s).C = s.C := rfl
@[simp] theorem newContext_D : (newContext s).D = s.D := rfl
@[simp] theorem newContext_inbox : (newContext s).inbox = s.inbox := rfl
@[simp] theorem newContext_draws : (newContext s).draws = s.draws := rfl

/-- Nothing is in progress: nothing is finished. -/
@[simp] theorem finishPermutation_of_ready {s : State} (h : s.busy = false) : finishPermutation s = s := by
  simp [finishPermutation, h]

/-- A command without a response (R120, R177). -/
@[simp] theorem response_noResponse : (noResponse s).response = none := rfl

/-- A command's response (R120, R177). -/
@[simp] theorem response_respond (v : Byte) : (respond v s).response = some v := rfl

/-- The first error is kept (R152). -/
theorem raiseError_of_error {s : State} (e : ErrorName) (h : s.ERR = true) : raiseError e s = s := by
  simp [raiseError, h]

/-- An error is recorded where none was (R152). -/
theorem raiseError_of_clean {s : State} (e : ErrorName) (h : s.ERR = false) :
    raiseError e s = { s with ERR := true, ECODE := e.code } := by
  simp [raiseError, h]

/-- The codes of R151 are 1 to 4. -/
theorem code_range (e : ErrorName) : 1 ≤ e.code.toNat ∧ e.code.toNat ≤ 4 := by
  cases e <;> decide

end Sys2Proof.Machine
end

