-- ==== Sys2Proof/Laws/Exec.lean ====
section
/-! SUPPORT. What each meaning, an accepted word and a step can do, said once: later proofs cite these lemmas instead of unfolding. -/

namespace Sys2Proof.Machine

variable {s t : State}

/-- The states that come of ABSORB and FINAL before their permutation exist wherever `offset` is a byte of the space. -/
theorem absorbByte_spec (b : Byte) (h : s.offset.toNat < 200) :
    ∃ A, absorbByte b s = some A ∧
      ∀ k, memRead A k = if k = s.offset.toNat then (memRead s.S k).map (· ^^^ b) else memRead s.S k :=
  memXor_spec s.S h b

/-- FINAL's padding, byte by byte (R125, R126). -/
theorem padBlock_spec (h : s.offset.toNat < 200) :
    ∃ A, padBlock s = some A ∧
      ∀ k, memRead A k =
        if k = 135 then
          (if s.offset.toNat = 135 then (memRead s.S k).map (· ^^^ 0x86) else (memRead s.S k).map (· ^^^ 0x80))
        else if k = s.offset.toNat then (memRead s.S k).map (· ^^^ 0x06) else memRead s.S k := by
  obtain ⟨A, hA, rA⟩ := memXor_spec s.S h Config.domainByte
  obtain ⟨P, hP, rP⟩ := memXor_spec A (show 135 < 200 by omega) Config.trailerByte
  refine ⟨P, by simp [padBlock, absorbPosition, trailerPosition, hA, hP], fun k => ?_⟩
  rw [rP, rA]
  by_cases h1 : k = 135
  · subst h1
    by_cases h2 : s.offset.toNat = 135
    · simp only [h2, if_true, Option.map_map]
      congr 1; funext x
      change x ^^^ 0x06#8 ^^^ 0x80#8 = x ^^^ 0x86#8
      rw [BitVec.xor_assoc]; rfl
    · have h3 : ¬(135 = s.offset.toNat) := fun e => h2 e.symm
      simp only [h2, h3, if_false, if_true]; rfl
  · simp only [h1, if_false]; rfl

/-- ABSORB after FINAL (R151 code 1). -/
theorem absorbWith_finalized (perm : State → State) (b : Byte) (hf : s.FIN = true) :
    absorbWith perm b s = .next (raiseError .absorbAfterFinal (noResponse s)) := by
  unfold absorbWith; rw [if_pos hf]

/-- ABSORB of the last byte of the block (R124). -/
theorem absorbWith_full (perm : State → State) {b : Byte} {A : Lanes} (hf : s.FIN = false)
    (hA : absorbByte b s = some A) (ho : s.offset = 135) :
    absorbWith perm b s = .next (perm { noResponse s with S := A, offset := 0 }) := by
  unfold absorbWith; rw [if_neg (by simp [hf]), hA]; dsimp only; rw [if_pos ho]

/-- ABSORB of any other byte (R123). -/
theorem absorbWith_partial (perm : State → State) {b : Byte} {A : Lanes} (hf : s.FIN = false)
    (hA : absorbByte b s = some A) (ho : s.offset ≠ 135) :
    absorbWith perm b s = .next { noResponse s with S := A, offset := s.offset + 1 } := by
  unfold absorbWith; rw [if_neg (by simp [hf]), hA]; dsimp only; rw [if_neg ho]

/-- FINAL after FINAL (R151 code 2). -/
theorem finalWith_finalized (perm : State → State) (hf : s.FIN = true) :
    finalWith perm s = .next (raiseError .finalAfterFinal (noResponse s)) := by
  unfold finalWith; rw [if_pos hf]

/-- FINAL of an open context (R125). -/
theorem finalWith_open (perm : State → State) {A : Lanes} (hf : s.FIN = false) (hA : padBlock s = some A) :
    finalWith perm s = .next (perm { noResponse s with S := A, FIN := true }) := by
  unfold finalWith; rw [if_neg (by simp [hf]), hA]

/-- RDIG of a finalized context (R127). -/
theorem execRdig_finalized (k : BitVec 5) (hf : s.FIN = true) : execRdig k s = .next (respond (digestByte k s) s) := by
  unfold execRdig; rw [if_pos hf]

/-- RDIG before FINAL (R151 code 3). -/
theorem execRdig_open (k : BitVec 5) (hf : s.FIN = false) :
    execRdig k s = .next (respond 0x00 (raiseError .digestBeforeFinal s)) := by
  unfold execRdig; rw [if_neg (by simp [hf])]

/-- RDIG, whole (R127). -/
theorem execRdig_cases {k : BitVec 5} (h : execRdig k s = .next t) :
    (s.FIN = true ∧ t = respond (digestByte k s) s) ∨
    (s.FIN = false ∧ t = respond 0x00 (raiseError .digestBeforeFinal s)) := by
  cases hf : s.FIN with
  | true => rw [execRdig_finalized k hf] at h; injection h with h; exact .inl ⟨rfl, h.symm⟩
  | false => rw [execRdig_open k hf] at h; injection h with h; exact .inr ⟨rfl, h.symm⟩

/-- A command that raises an error leaves exactly this state (R152, R154). -/
theorem raiseError_noResponse (e : ErrorName) (s : State) :
    raiseError e (noResponse s) =
      { s with rspValid := false, ERR := true, ECODE := if s.ERR then s.ECODE else e.code } := by
  unfold raiseError
  split
  · next h => simp at h; simp [noResponse, h]
  · next h => simp at h; simp [noResponse, h]

/-- ABSORB, whole (R123, R124). -/
theorem absorbWith_cases {perm : State → State} {b : Byte} (h : absorbWith perm b s = .next t) :
    (s.FIN = true ∧ t = raiseError .absorbAfterFinal (noResponse s)) ∨
    (s.FIN = false ∧ ∃ A, absorbByte b s = some A ∧
      ((s.offset = 135 ∧ t = perm { noResponse s with S := A, offset := 0 }) ∨
       (s.offset ≠ 135 ∧ t = { noResponse s with S := A, offset := s.offset + 1 }))) := by
  unfold absorbWith at h
  split at h
  · next hf => exact .inl ⟨hf, by injection h with h; exact h.symm⟩
  · next hf =>
    refine .inr ⟨by simpa using hf, ?_⟩
    split at h
    · cases h
    · next A hA =>
      refine ⟨A, hA, ?_⟩
      split at h
      · next ho => exact .inl ⟨ho, by injection h with h; exact h.symm⟩
      · next ho => exact .inr ⟨ho, by injection h with h; exact h.symm⟩

/-- FINAL, whole (R125). -/
theorem finalWith_cases {perm : State → State} (h : finalWith perm s = .next t) :
    (s.FIN = true ∧ t = raiseError .finalAfterFinal (noResponse s)) ∨
    (s.FIN = false ∧ ∃ A, padBlock s = some A ∧ t = perm { noResponse s with S := A, FIN := true }) := by
  unfold finalWith at h
  split at h
  · next hf => exact .inl ⟨hf, by injection h with h; exact h.symm⟩
  · next hf =>
    refine .inr ⟨by simpa using hf, ?_⟩
    split at h
    · cases h
    · next A hA => exact ⟨A, hA, by injection h with h; exact h.symm⟩

/-- Where `offset` is a byte of the space, ABSORB answers a next state. -/
theorem absorbWith_next (perm : State → State) (b : Byte) (h : s.offset.toNat < 200) :
    ∃ t, absorbWith perm b s = .next t := by
  obtain ⟨A, hA, _⟩ := absorbByte_spec b h
  unfold absorbWith
  split
  · exact ⟨_, rfl⟩
  · rw [hA]; dsimp only; split <;> exact ⟨_, rfl⟩

/-- Where `offset` is a byte of the space, FINAL answers a next state. -/
theorem finalWith_next (perm : State → State) (h : s.offset.toNat < 200) : ∃ t, finalWith perm s = .next t := by
  obtain ⟨A, hA, _⟩ := padBlock_spec h
  unfold finalWith
  split
  · exact ⟨_, rfl⟩
  · rw [hA]; exact ⟨_, rfl⟩

/-- An accepted word is a command run, or an illegal word recorded (R120). -/
theorem acceptWord_cases {w : CommandWord} {r : Result} (h : acceptWord w s = r) :
    (∃ i, decode w = .ok i ∧ r = exec i s) ∨ (∃ e, decode w = .error e ∧ r = .next (acceptIllegal s)) := by
  unfold acceptWord at h
  split at h
  · next i hi => exact .inl ⟨i, hi, h.symm⟩
  · next e he => exact .inr ⟨e, he, h.symm⟩

/-- Where `offset` is a byte of the space, every command answers a next state. -/
theorem exec_next (i : Instr) (h : s.offset.toNat < 200) : ∃ t, exec i s = .next t := by
  cases i with
  | absorb b => exact absorbWith_next permute b h
  | final => exact finalWith_next permute h
  | rdig k => simp only [exec, execRdig]; split <;> exact ⟨_, rfl⟩
  | nop => exact ⟨_, rfl⟩
  | init => exact ⟨_, rfl⟩
  | rstat => exact ⟨_, rfl⟩
  | roff => exact ⟨_, rfl⟩

/-- A legal word runs its command (R120). -/
theorem acceptWord_legal {w : CommandWord} {i : Instr} (h : decode w = .ok i) : acceptWord w s = exec i s := by
  unfold acceptWord; rw [h]

/-- An illegal word records its error (R64). -/
theorem acceptWord_illegal {w : CommandWord} {e : IllegalReason} (h : decode w = .error e) :
    acceptWord w s = .next (acceptIllegal s) := by
  unfold acceptWord; rw [h]

/-- Where `offset` is a byte of the space, every word answers a next state. -/
theorem acceptWord_next (w : CommandWord) (h : s.offset.toNat < 200) : ∃ t, acceptWord w s = .next t := by
  cases hd : decode w with
  | ok i => rw [acceptWord_legal hd]; exact exec_next i h
  | error e => exact ⟨_, acceptWord_illegal hd⟩

/-- A step, whole: the host's next move, or an idle cycle where it makes none. -/
theorem step_cases (s : State) :
    (s.inbox = [] ∧ step s = hostMove .idle s) ∨
    (∃ m rest, s.inbox = m :: rest ∧ step s = hostMove m { s with inbox := rest }) := by
  unfold step
  split
  · next h => exact .inl ⟨h, rfl⟩
  · next m rest h => exact .inr ⟨m, rest, h, rfl⟩

end Sys2Proof.Machine
end

