-- ==== Sys2Proof/Laws/PerInstr.lean ====
section
/-! SUPPORT. Statements made per command: the command's own word is legal. -/

namespace Sys2Proof.Laws.EncodesLegal

/-- The word the encoder writes for a command is a legal word (R63). -/
def Statement (i : Instr) : Prop := legal (encode i) = true

theorem nop : Statement .nop := by unfold Statement; decide
theorem init : Statement .init := by unfold Statement; decide
theorem absorb (b : Byte) : Statement (.absorb b) := by
  revert b; unfold Statement; decide
theorem final : Statement .final := by unfold Statement; decide
theorem rdig (i : BitVec 5) : Statement (.rdig i) := by
  revert i; unfold Statement; decide
theorem rstat : Statement .rstat := by unfold Statement; decide
theorem roff : Statement .roff := by unfold Statement; decide

end Sys2Proof.Laws.EncodesLegal
end

