-- ==== Sys2Proof/Laws/Permutation.lean ====
section
/-! SUPPORT. Lane files by their coordinates, and each step mapping read at one lane. -/

namespace Sys2Proof.Machine

@[simp] theorem laneAt_ofCoords (f : Coord → Coord → Lane) (x y : Coord) : laneAt (ofCoords f) x y = f x y := by
  have hx : (x.val + 5 * y.val) % 5 = x.val := by omega
  have hy : (x.val + 5 * y.val) / 5 = y.val := by omega
  simp [laneAt, ofCoords, laneIndex, hx, hy]

/-- Every lane stands at a coordinate (R12). -/
theorem laneIndex_surjective (i : Fin 25) : ∃ x y : Coord, laneIndex x y = i :=
  ⟨⟨i.val % 5, by omega⟩, ⟨i.val / 5, by omega⟩, Fin.ext (by simp [laneIndex]; omega)⟩

/-- Files that agree at every coordinate are equal. -/
theorem lanes_ext {A B : Lanes} (h : ∀ x y, laneAt A x y = laneAt B x y) : A = B := by
  apply Vector.ext
  intro i hi
  obtain ⟨x, y, hxy⟩ := laneIndex_surjective ⟨i, hi⟩
  have := h x y
  simpa [laneAt, hxy] using this

@[simp] theorem laneAt_zeroed (x y : Coord) : laneAt (Vector.replicate 25 0#64) x y = 0 := by
  simp [laneAt]

@[simp] theorem thetaC_at (A : Lanes) (x : Coord) :
    (thetaC A)[x.val] = laneAt A x 0 ^^^ laneAt A x 1 ^^^ laneAt A x 2 ^^^ laneAt A x 3 ^^^ laneAt A x 4 := by
  simp [thetaC, laneXor]

@[simp] theorem thetaD_at (C : Columns) (x : Coord) :
    (thetaD C)[x.val] = C[(x + 4).val] ^^^ rotl64 C[(x + 1).val] 1 := by
  simp [thetaD, laneXor]

@[simp] theorem laneAt_theta (A : Lanes) (x y : Coord) :
    laneAt (theta A) x y = laneAt A x y ^^^ (thetaD (thetaC A))[x.val] := by
  simp only [theta, laneAt_ofCoords, laneXor, Fin.getElem_fin]

@[simp] theorem laneAt_rho (A : Lanes) (x y : Coord) : laneAt (rho A) x y = rotl64 (laneAt A x y) (RHO x y) := by
  simp [rho]

@[simp] theorem laneAt_pi (A : Lanes) (X Y : Coord) : laneAt (pi A) X Y = laneAt A (X + 3 * Y) X := by
  simp [pi]

@[simp] theorem laneAt_rhoPi (A : Lanes) (X Y : Coord) :
    laneAt (rhoPi A) X Y = rotl64 (laneAt A (X + 3 * Y) X) (RHO (X + 3 * Y) X) := by
  simp [rhoPi]

@[simp] theorem laneAt_chi (B : Lanes) (x y : Coord) :
    laneAt (chi B) x y = laneAt B x y ^^^ (~~~laneAt B (x + 1) y &&& laneAt B (x + 2) y) := by
  simp [chi, laneXor, laneAnd, laneNot]

/-- The lane `(x, y)` is lane 0 only at `(0, 0)`. -/
theorem laneIndex_eq_zero (x y : Coord) : laneIndex x y = 0 ↔ x = 0 ∧ y = 0 := by
  revert x y; decide

theorem laneAt_iota (A : Lanes) (ir : Fin 24) (x y : Coord) :
    laneAt (iota A ir) x y = if x = 0 ∧ y = 0 then laneAt A 0 0 ^^^ RC[ir] else laneAt A x y := by
  by_cases h : x = 0 ∧ y = 0
  · obtain ⟨rfl, rfl⟩ := h
    simp [laneAt, iota, laneXor, laneIndex]
  · have hi : (laneIndex x y).val ≠ 0 := fun e => h ((laneIndex_eq_zero x y).1 (Fin.ext e))
    simp [laneAt, iota, laneXor, h, Ne.symm hi]

/-- Rounds run one after another (R90). -/
theorem rounds_add (m n ir : Nat) (A : Lanes) : rounds (m + n) ir A = rounds n (ir + m) (rounds m ir A) := by
  induction m generalizing ir A with
  | zero => simp [rounds]
  | succ m ih => rw [Nat.succ_add, rounds, ih, rounds, Nat.add_assoc, Nat.add_comm 1 m]

end Sys2Proof.Machine
end

