-- ==== Sys2Proof/Laws/Session.lean ====
section
/-! SUPPORT. The rounds left of a permutation in progress, the host's moves beside a command's effect, and sessions and steps word by word. -/

namespace Sys2Proof.Machine

variable {s t : State}

/-- The rounds from `ir` to 23 are the rest of the list of rounds (R90, R98). -/
theorem rounds_rest (n : Nat) (hn : n ≤ 24) (A : Lanes) :
    rounds n (24 - n) A = ((List.finRange 24).drop (24 - n)).foldl roundFn A := by
  induction n generalizing A with
  | zero => rfl
  | succ n ih =>
    have hlt : 24 - (n + 1) < 24 := by omega
    have hir : Fin.ofNat 24 (24 - (n + 1)) = ⟨24 - (n + 1), hlt⟩ := Fin.ext (Nat.mod_eq_of_lt hlt)
    rw [rounds, List.drop_eq_getElem_cons (by simpa using hlt), List.foldl_cons, List.getElem_finRange, hir,
      show 24 - (n + 1) + 1 = 24 - n by omega, ih (by omega)]
    rfl

/-- The completion of a permutation in progress, whole (R175). -/
theorem finishPermutation_of_busy (h : s.busy = true) :
    finishPermutation s =
      redrawScratch
        { s with S := ((List.finRange 24).drop s.ir.val).foldl roundFn s.S, rspValid := false, busy := false, ir := 0 } := by
  have := rounds_rest (24 - s.ir.val) (by omega) s.S
  rw [show 24 - (24 - s.ir.val) = s.ir.val by omega] at this
  simp [finishPermutation, h, this]

/-- The error record neither reads nor changes what the host is yet to do. -/
theorem raiseError_inbox_update (e : ErrorName) (L : List HostMove) :
    raiseError e { s with inbox := L } = { raiseError e s with inbox := L } := by
  unfold raiseError; dsimp only; split <;> rfl

/-- A command's effect neither reads nor changes what the host is yet to do. -/
theorem exec_inbox {i : Instr} (L : List HostMove) (h : exec i s = .next t) :
    exec i { s with inbox := L } = .next { t with inbox := L } := by
  cases i with
  | nop => cases h; rfl
  | init => cases h; rfl
  | rstat => cases h; rfl
  | roff => cases h; rfl
  | rdig k =>
    obtain ⟨hf, rfl⟩ | ⟨hf, rfl⟩ := execRdig_cases h
    · exact execRdig_finalized (s := { s with inbox := L }) k hf
    · exact (execRdig_open (s := { s with inbox := L }) k hf).trans
        (congrArg (fun q => Host.Outcome.next (respond 0x00 q)) (raiseError_inbox_update _ L))
  | absorb b =>
    obtain ⟨hf, rfl⟩ | ⟨hf, A, hA, ⟨ho, rfl⟩ | ⟨ho, rfl⟩⟩ := absorbWith_cases h
    · exact (absorbWith_finalized (s := { s with inbox := L }) permute b hf).trans
        (congrArg Host.Outcome.next (raiseError_inbox_update (s := noResponse s) _ L))
    · exact absorbWith_full (s := { s with inbox := L }) permute hf hA ho
    · exact absorbWith_partial (s := { s with inbox := L }) permute hf hA ho
  | final =>
    obtain ⟨hf, rfl⟩ | ⟨hf, A, hA, rfl⟩ := finalWith_cases h
    · exact (finalWith_finalized (s := { s with inbox := L }) permute hf).trans
        (congrArg Host.Outcome.next (raiseError_inbox_update (s := noResponse s) _ L))
    · exact finalWith_open (s := { s with inbox := L }) permute hf hA

/-- An accepted word's effect neither reads nor changes what the host is yet to do. -/
theorem acceptWord_inbox {w : CommandWord} (L : List HostMove) (h : acceptWord w s = .next t) :
    acceptWord w { s with inbox := L } = .next { t with inbox := L } := by
  cases hd : decode w with
  | ok i => rw [acceptWord_legal hd] at h ⊢; exact exec_inbox L h
  | error e =>
    rw [acceptWord_illegal hd] at h ⊢
    cases h
    exact congrArg Host.Outcome.next (raiseError_inbox_update (s := noResponse s) _ L)

/-- A step of an engine at rest whose host is to present `w` (R175). -/
theorem step_command {w : CommandWord} {rest : List HostMove} (hb : s.busy = false) (hi : s.inbox = .command w :: rest) :
    step s = acceptWord w { s with inbox := rest } := by
  simp [step, hi, hostMove, finishPermutation, hb]

@[simp] theorem runWords_nil : runWords [] s = .next ⟨s, [], 0⟩ := rfl

/-- A session word by word (R48). -/
theorem runWords_cons {w : CommandWord} {ws : List CommandWord} {u : Session} (h : acceptWord w s = .next t)
    (hu : runWords ws t = .next u) :
    runWords (w :: ws) s = .next ⟨u.state, t.response.toList ++ u.responses, commandCycles w s + u.cycles⟩ := by
  simp only [runWords, h, hu]

@[simp] theorem runSteps_zero : runSteps 0 s = .next (s, []) := rfl

/-- Steps one after another. -/
theorem runSteps_succ {n : Nat} {u : State} {rs : List Byte} (h : step s = .next t) (hu : runSteps n t = .next (u, rs)) :
    runSteps (n + 1) s = .next (u, t.response.toList ++ rs) := by
  simp only [runSteps, h, hu]

end Sys2Proof.Machine
end

