-- ==== Sys2Proof/Laws/Strict.lean ====
section
/-! SUPPORT. The permutation evaluated eagerly, each round's lanes made numerals before the next round: equal to the model's, and fast enough for the kernel to evaluate in a test. -/

namespace Sys2Proof.Machine

/-- Pass a number on once it is a numeral: the recursor makes the kernel evaluate it first. -/
def forceNat {α : Type} (n : Nat) (k : Nat → α) : α := Nat.rec (k 0) (fun m _ => k (m + 1)) n

theorem forceNat_eq {α : Type} (n : Nat) (k : Nat → α) : forceNat n k = k n := by
  cases n <;> rfl

/-- Pass a list of lanes on once every lane is a numeral. -/
def forceList {α : Type} : List Lane → (List Lane → α) → α
  | [], k => k []
  | a :: as, k => forceNat a.toNat fun n => forceList as fun bs => k (BitVec.ofNat 64 n :: bs)

theorem forceList_eq {α : Type} (as : List Lane) (k : List Lane → α) : forceList as k = k as := by
  induction as generalizing k with
  | nil => rfl
  | cons a as ih => simp [forceList, forceNat_eq, ih]

/-- A list of lanes as a file; a lane that is missing is 0. -/
def fileOf (as : List Lane) : Lanes := Vector.ofFn fun i => as.getD i.val 0

theorem fileOf_toList (A : Lanes) : fileOf A.toList = A := by
  apply Vector.ext
  intro i hi
  simp [fileOf]

/-- The rounds of R90, each round's lanes evaluated before the next. -/
def strictRounds : Nat → Nat → List Lane → List Lane
  | 0, _, as => as
  | n + 1, ir, as =>
    forceList (roundFn (fileOf as) (Fin.ofNat 24 ir)).toList fun bs => strictRounds n (ir + 1) bs

theorem strictRounds_eq (n ir : Nat) (A : Lanes) : strictRounds n ir A.toList = (rounds n ir A).toList := by
  induction n generalizing ir A with
  | zero => rfl
  | succ n ih => rw [strictRounds, forceList_eq, fileOf_toList, ih, rounds]

/-- KeccakF by eager evaluation (R90). -/
theorem keccakF_strict (A : Lanes) : (keccakF A).toList = strictRounds 24 0 A.toList := by
  rw [strictRounds_eq, keccakF]

end Sys2Proof.Machine
end

