-- ==== Sys2Proof/Tests/Slice0.lean ====
section
/-! SUPPORT. Tests against the vectors of spec/95_test_vectors.md and the words of spec/30_encoding.md, the smoke test of the well-formedness checks, and for each statement with hypotheses a state and operands that meet them. -/

namespace Sys2Proof.Tests

open Sys2Proof.Machine

/-! ### Well-formedness: an ill-formed term for each check (30_encoding.md R67) -/

theorem test_byte_256_is_refused : (Line.absorb 256).wellFormed = false ∧ (Line.absorb 255).wellFormed = true := by decide
theorem test_index_32_is_refused : (Line.rdig 32).wellFormed = false ∧ (Line.rdig 31).wellFormed = true := by decide
theorem test_word_65536_is_refused : (Line.word 65536).wellFormed = false ∧ (Line.word 65535).wellFormed = true := by decide
theorem test_message_byte_256_is_refused :
    (Line.absorbs [1, 256]).wellFormed = false ∧ (Line.hash [256]).wellFormed = false := by decide
theorem test_ill_formed_lines_assemble_to_nothing :
    (Line.absorb 256).assemble = none ∧ (Line.rdig 32).assemble = none ∧ (Line.word 65536).assemble = none := by decide

/-! ### Decoding: words written out bit by bit from the fields of R60 -/

theorem test_decode_nop : decode 0b0000_0000_00000000 = .ok .nop := by decide
theorem test_decode_init : decode 0b0001_0000_00000000 = .ok .init := by decide
theorem test_decode_absorb : decode 0b0010_0000_01100001 = .ok (.absorb 0x61) := by decide
theorem test_decode_final : decode 0b0011_0000_00000000 = .ok .final := by decide
theorem test_decode_rdig : decode 0b0100_0000_00011111 = .ok (.rdig 31) := by decide
theorem test_decode_rstat : decode 0b0101_0000_00000000 = .ok .rstat := by decide
theorem test_decode_roff : decode 0b0110_0000_00000000 = .ok .roff := by decide

/-- V-E2, V-E4, V-E7, V-E9, V-E12, V-E13, V-E16 to V-E18: the illegal words, each by its name. -/
theorem test_illegal_words_by_name :
    decode 0x0001 = .error .strayData ∧ decode 0x1100 = .error .reservedField ∧
    decode 0x2161 = .error .reservedField ∧ decode 0x3001 = .error .strayData ∧
    decode 0x4020 = .error .indexOutOfRange ∧ decode 0x40FF = .error .indexOutOfRange ∧
    decode 0x6080 = .error .strayData ∧ decode 0x7000 = .error .reservedOpcode ∧
    decode 0x8000 = .error .reservedOpcode ∧ decode 0xF0FF = .error .reservedOpcode := by decide

/-- R67's examples of encoding, and the extreme operands. -/
theorem test_encode_examples :
    encode (.absorb 0x61) = 0x2061 ∧ encode (.rdig 31) = 0x401F ∧ encode (.absorb 0xFF) = 0x20FF := by decide

/-- The words of the opcode table's rows, operands 0, by the table's numbering. -/
theorem test_table_words :
    [0x0000, 0x1000, 0x2000, 0x3000, 0x4000, 0x5000, 0x6000].map (decodeTableWord 16) =
      [some .nop, some .init, some (.absorb 0), some .final, some (.rdig 0), some .rstat, some .roff] := by decide

/-! ### Lane primitives and step mappings (95_test_vectors.md 2.1, 2.2) -/

/-- A file given by its nonzero lanes. -/
def lanesOf (l : List (Fin 25 × Lane)) : Lanes := Vector.ofFn fun i => (l.lookup i).getD 0

/-- V-L6 to V-L9. -/
theorem test_rotl64 :
    rotl64 0x8000000000000001 1 = 0x3 ∧ rotl64 0x8000000000000001 63 = 0xC000000000000000 ∧
    rotl64 0x0123456789ABCDEF 4 = 0x123456789ABCDEF0 ∧ rotl64 0x0123456789ABCDEF 62 = 0xC048D159E26AF37B := by decide

/-- V-L1, V-L3, V-L4. -/
theorem test_lane_logic :
    laneXor 0xF0F0F0F0F0F0F0F0 0xFF00FF00FF00FF00 = 0x0FF00FF00FF00FF0 ∧
    laneAnd 0xFF00FF00FF00FF00 0xFFFF0000FFFF0000 = 0xFF000000FF000000 ∧ laneNot 0 = 0xFFFFFFFFFFFFFFFF := by decide

/-- V-T2. -/
theorem test_theta :
    theta (lanesOf [(0, 1)]) =
      lanesOf [(0, 1), (1, 1), (4, 2), (6, 1), (9, 2), (11, 1), (14, 2), (16, 1), (19, 2), (21, 1), (24, 2)] := by
  decide +kernel

/-- V-P2, V-P3, V-P4. -/
theorem test_rho_pi :
    rhoPi (lanesOf [(1, 1)]) = lanesOf [(10, 2)] ∧ rhoPi (lanesOf [(24, 1)]) = lanesOf [(4, 0x4000)] ∧
    rhoPi (lanesOf [(24, 0x8000000000000000)]) = lanesOf [(4, 0x2000)] := by
  decide +kernel

/-- V-C1. -/
theorem test_chi :
    chi (lanesOf [(0, 0xF0F0F0F0F0F0F0F0), (1, 0xFF00FF00FF00FF00), (2, 0xFFFF0000FFFF0000), (4, 0xFFFFFFFFFFFFFFFF)]) =
      lanesOf [(0, 0xF00FF0F0F00FF0F0), (1, 0xFF00FF00FF00FF00), (2, 0x0000FFFF0000FFFF), (4, 0xF0FFF0FFF0FFF0FF)] := by
  decide +kernel

/-- V-I2. -/
theorem test_iota : iota zeroLanes 23 = lanesOf [(0, 0x8000000080008008)] := by decide +kernel

/-- V-R2, four of its lanes. -/
theorem test_round :
    let A := roundFn (lanesOf [(0, 0x06), (16, 0x8000000000000000)]) 0
    A[0] = 0x0000040000000006 ∧ A[6] = 0x0000D00000C00000 ∧ A[16] = 0x0000001000004000 ∧ A[24] = 0x18 := by
  decide +kernel

/-! ### Commands (95_test_vectors.md 2.4 to 2.6), one step each -/

/-- The state a command leaves, read from a state that cannot fault. -/
def after (i : Instr) (s : State) : State :=
  match exec i s with
  | .next t => t
  | .fault _ => s
  | .refused _ => s

/-- V-E1: NOP. -/
theorem test_nop : after .nop { State.reset with rspByte := 7, rspValid := true } = { State.reset with rspByte := 7 } := by
  decide

/-- V-X6: INIT clears the record and keeps `rsp_byte`. -/
theorem test_init :
    after .init { State.reset with FIN := true, ERR := true, ECODE := 3, offset := 9, rspByte := 7 } =
      { State.reset with rspByte := 7 } := by
  decide

/-- V-SP2's last byte: 'c' after 'a' and 'b'. -/
theorem test_absorb :
    let t := after (.absorb 0x63) { State.reset with S := lanesOf [(0, 0x6261)], offset := 2 }
    t.S = lanesOf [(0, 0x636261)] ∧ t.offset = 3 ∧ t.busy = false := by
  decide +kernel

/-- V-SP5's last byte: the block is full, `offset` is 0 again. -/
theorem test_absorb_full :
    let t := after (.absorb 0x00) { State.reset with offset := 135 }
    t.offset = 0 ∧ t.FIN = false ∧ t.ERR = false := by
  decide +kernel

/-- V-X1: ABSORB after FINAL. -/
theorem test_absorb_after_final :
    let s := { State.reset with FIN := true, offset := 1 }
    after (.absorb 0x62) s = { s with ERR := true, ECODE := 1 } := by
  decide

/-- V-SP3: FINAL's padding before its permutation. -/
theorem test_padding :
    padBlock { State.reset with S := lanesOf [(0, 0x636261)], offset := 3 } =
      some (lanesOf [(0, 0x06636261), (16, 0x8000000000000000)]) := by
  decide +kernel

/-- W7: the two XORs on one byte. -/
theorem test_padding_at_135 :
    padBlock { State.reset with offset := 135 } = some (lanesOf [(16, 0x8600000000000000)]) := by
  decide +kernel

/-- V-E8 and W1: FINAL of the empty message leaves the lanes of the document's digest S1. -/
theorem test_final_of_the_empty_message :
    ((after .final State.reset).S.toList.take 4) =
      [0x66D71EBFF8C6FFA7, 0x62D661A05647C151, 0xFA493BE44DFF80F5, 0x4A43F8804B0AD882] := by
  have h : padBlock State.reset = some (lanesOf [(0, 0x06), (16, 0x8000000000000000)]) := by decide +kernel
  have e : after .final State.reset = permute { noResponse State.reset with S := _, FIN := true } :=
    congrArg (fun r => match r with | .next t => t | .fault _ => State.reset | .refused _ => State.reset)
      (finalWith_open permute (s := State.reset) rfl h)
  rw [e, permute_S, keccakF_strict]
  decide +kernel

/-- V-X2: FINAL after FINAL. -/
theorem test_final_after_final :
    let s := { State.reset with FIN := true }
    after .final s = { s with ERR := true, ECODE := 2 } := by
  decide

/-- RDIG reads byte 9, the second byte of lane 1. -/
theorem test_rdig :
    let s := { State.reset with FIN := true, S := lanesOf [(1, 0xBD90D36B2D175C04)] }
    (after (.rdig 9) s).response = some 0x5C := by
  decide +kernel

/-- V-X3: RDIG before FINAL. -/
theorem test_rdig_before_final :
    after (.rdig 5) { State.reset with rspByte := 9 } =
      { State.reset with ERR := true, ECODE := 3, rspByte := 0, rspValid := true } := by
  decide

/-- V-X1 and V-X3: the status bytes 0x07 and 0x0E. -/
theorem test_rstat :
    (after .rstat { State.reset with FIN := true, ERR := true, ECODE := 1 }).response = some 0x07 ∧
    (after .rstat { State.reset with ERR := true, ECODE := 3 }).response = some 0x0E := by
  decide

/-- V-SP4: ROFF responds 0x87. -/
theorem test_roff : (after .roff { State.reset with offset := 135 }).response = some 0x87 := by decide

/-- V-X5: the first error is kept when an illegal word follows. -/
theorem test_first_error_kept :
    acceptIllegal { State.reset with ERR := true, ECODE := 3 } = { State.reset with ERR := true, ECODE := 3 } := by
  decide

/-- The first step after reset runs the word placed for it, for a word of each family. -/
theorem test_fetched_words_run :
    step (State.reset.withFetchWord 16 0x1000) = exec .init State.reset ∧
    step (State.reset.withFetchWord 16 0x2061) = exec (.absorb 0x61) State.reset ∧
    step (State.reset.withFetchWord 16 0x5000) = exec .rstat State.reset := ⟨rfl, rfl, rfl⟩

/-- The fault of an `offset` that R25 says is never held. -/
theorem test_no_byte_200 :
    exec (.absorb 1) { State.reset with offset := 200 } = .fault (.noSuchByte 200) := by rfl

/-! ### The clock, the assembler, the byte list -/

/-- R176: the edge that accepts a FINAL leaves the engine busy, and a ROFF's does not. -/
theorem test_edge_starts_the_mapper :
    (match tick ⟨false, true, 0x3000⟩ State.reset with | .next t => t.busy && t.FIN | _ => false) = true ∧
    (match tick ⟨false, true, 0x6000⟩ State.reset with | .next t => !t.busy && t.rspValid | _ => false) = true := by
  decide +kernel

/-- R67's examples and R68's texts. -/
theorem test_assemble :
    assembleText ["ABSORB 0x61 ; one byte".toList, "RDIG 31".toList, ".word 0x7000".toList, "ABSORBS \"ab\"".toList] =
      some [0x2061, 0x401F, 0x7000, 0x2061, 0x2062] := by
  decide +kernel

/-- R69: the printed forms. -/
theorem test_disassemble :
    disassemble 0x2061 = "ABSORB 0x61".toList ∧ disassemble 0x401F = "RDIG 31".toList ∧
    disassemble 0x7000 = ".word 0x7000".toList := by
  decide +kernel

/-- V-SP2's block as a list of cells. -/
theorem test_cells : Memory.cells (lanesOf [(0, 0x636261)]) = [(0, 0x61), (1, 0x62), (2, 0x63)] := by
  decide +kernel

/-! ### Witnesses: for each statement with hypotheses, a state and operands that meet them -/

/-- An open context with a full error record, at `offset = k`. -/
def openAt (k : BitVec 8) : State := { State.reset with offset := k, ERR := true, ECODE := 4 }

/-- A finalized context. -/
def finalized : State := { State.reset with FIN := true, offset := 3 }

theorem witness_StepRunsTheDecodedCommand :
    ({ State.reset with inbox := [.command 0x2061, .idle] }).inbox = .command 0x2061 :: [.idle] ∧
    decode 0x2061 = .ok (.absorb 0x61) ∧ State.reset.busy = false ∧ decodeTableWord 16 0x401F = some (.rdig 31) ∧
    ({ State.reset with busy := true, ir := 23, inbox := [.command 0x7000] }).inbox = .command 0x7000 :: [] ∧
    decode 0x7000 = .error .reservedOpcode := by decide

theorem witness_EveryStepGoesOnAndKeepsTheInvariants : Invariants (openAt 135) ∧ Invariants { finalized with busy := true, ir := 23 } := by
  decide

theorem witness_ResetEdgeGivesTheResetValues : (PortsIn.mk true true 0x3000).rst = true := by decide

theorem witness_ResetStepGivesTheResetState :
    ({ finalized with busy := true, ir := 7, inbox := [.reset] }).inbox = .reset :: [] := by decide

theorem witness_IdleEngineHoldsItsState :
    finalized.busy = false ∧ finalized.inbox = [] ∧
    ({ finalized with inbox := [.idle, .reset] }).inbox = .idle :: [.reset] ∧
    (({ finalized with busy := true, ir := 23 }).busy = true ∧ ({ finalized with busy := true, ir := 23 }).inbox = []) ∧
    ({ finalized with busy := true, inbox := [.idle] }).inbox = .idle :: [] ∧
    (PortsIn.mk false false 0x3000).rst = false ∧ (PortsIn.mk false false 0x3000).cmdValid = false := by decide

theorem witness_IllegalWordOnlyRecordsItsError :
    7 ≤ (0x7000#16).toNat / 4096 ∧ (0x2161#16).toNat / 256 % 16 ≠ 0 ∧
    ((0x3001#16).toNat % 256 ≠ 0 ∧ (0x3001#16).toNat / 4096 = 3) ∧
    ((0x4020#16).toNat / 4096 = 4 ∧ 32 ≤ (0x4020#16).toNat % 256) ∧ legal 0x4020 = false := by decide

theorem witness_NopChangesNothing : (0x0001#16).toNat / 4096 = 0 ∧ (0x0001 : CommandWord) ≠ 0x0000 := by decide

theorem witness_InitStartsANewContext :
    Instr.rstat ≠ .init ∧ (openAt 3).ERR = true ∧ ∃ t, exec .rstat (openAt 3) = .next t :=
  ⟨by decide, by decide, ⟨_, rfl⟩⟩

theorem witness_WordSelectsAtMostOneRow :
    rowRdig ∈ opcodeMap ∧ rowRdig.selects 0x401F = true := by decide

theorem witness_AbsorbXorsOneByteAndAdvances : (openAt 134).FIN = false ∧ (openAt 134).offset.toNat < 135 := by decide

theorem witness_AbsorbOfTheLastByteRunsKeccakF : (openAt 135).FIN = false ∧ (openAt 135).offset = 135 := by decide

theorem witness_AbsorbAfterFinalOnlyRecordsItsError : finalized.FIN = true := by decide

theorem witness_FinalPadsPermutesAndFinalizes :
    ((openAt 135).FIN = false ∧ (openAt 135).offset.toNat < Config.rateBytes) ∧
    ((openAt 0).FIN = false ∧ (openAt 0).offset.toNat < Config.rateBytes) ∧ finalized.FIN = true := by decide

theorem witness_PaddingXorsAreNotSpecialCased :
    ((openAt 135).FIN = false ∧ (openAt 135).offset = 135) ∧
    ((openAt 134).FIN = false ∧ (openAt 134).offset.toNat < 135) := by decide

theorem witness_RdigSqueezesOneDigestByte :
    finalized.FIN = true ∧ (openAt 0).FIN = false ∧
    (0x4020#16).toNat / 4096 = 4 ∧ 32 ≤ (0x4020#16).toNat % 4096 := by decide

theorem witness_RoffReadsTheOffset : Invariants (openAt 135) := by decide

theorem witness_ErrorCodesFollowTheTable :
    (finalized.ERR = false ∧ finalized.ECODE = 0) ∧
    acceptWord 0x2061 finalized = .next { finalized with ERR := true, ECODE := 1 } ∧
    acceptWord 0x4020 State.reset = .next { State.reset with ERR := true, ECODE := 4 } ∧
    acceptWord 0x4000 State.reset = .next { State.reset with ERR := true, ECODE := 3, rspValid := true } := by
  exact ⟨by decide, rfl, rfl, rfl⟩

theorem witness_ErrorsArePrecise :
    finalized.ERR = false ∧ acceptWord 0x3000 finalized = .next { finalized with ERR := true, ECODE := 2 } := by
  exact ⟨by decide, rfl⟩

theorem witness_FirstErrorIsKeptUntilInit :
    (openAt 3).ERR = true ∧ (0x4000 : CommandWord) ≠ 0x1000 ∧
    acceptWord 0x4000 (openAt 3) = .next { openAt 3 with rspValid := true } ∧
    (HostMove.idle ≠ .command 0x1000 ∧ HostMove.idle ≠ .reset ∧ ∃ t, hostMove .idle (openAt 3) = .next t) ∧
    (¬(accepts ⟨false, true, 0x1001⟩ (openAt 3) = true ∧ (0x1001 : CommandWord) = 0x1000) ∧
      ∃ t, tick ⟨false, true, 0x1001⟩ (openAt 3) = .next t) ∧
    (PortsIn.mk true true 0x1000).rst = true := by
  exact ⟨by decide, by decide, rfl, ⟨by decide, by decide, ⟨_, rfl⟩⟩, ⟨by decide, ⟨_, rfl⟩⟩, rfl⟩

theorem witness_RecordedErrorDoesNotBlock :
    acceptWord 0x6000 (openAt 3) = .next { openAt 3 with rspByte := 3, rspValid := true } := by rfl

theorem witness_FinalizedContextIsFixed :
    finalized.FIN = true ∧ (0x3000 : CommandWord) ≠ 0x1000 ∧
    acceptWord 0x3000 finalized = .next { finalized with ERR := true, ECODE := 2 } := by
  exact ⟨by decide, by decide, rfl⟩

theorem witness_CapacityChangesOnlyThroughKeccakF :
    Invariants (openAt 135) ∧ ∃ t, acceptWord 0x2000 (openAt 135) = .next t :=
  ⟨by decide, acceptWord_next 0x2000 (by decide)⟩

/-- Two engines that differ in byte 40 alone. -/
theorem witness_ResponsesRevealOnlyTheDigest :
    AgreeToTheHost finalized { finalized with S := lanesOf [(5, 1)] } ∧ Invariants finalized ∧
    (∀ w ∈ [0x5000#16, 0x7000#16], w ≠ 0x3000) ∧ ∃ u, runWords [0x5000, 0x7000] finalized = .next u := by
  have h₁ : acceptWord 0x5000 finalized = .next (respond (statusByte finalized) finalized) :=
    acceptWord_legal (i := .rstat) (by decide)
  have h₂ : acceptWord 0x7000 (respond (statusByte finalized) finalized) = .next _ :=
    acceptWord_illegal (e := .reservedOpcode) (by decide)
  refine ⟨by decide +kernel, by decide, by simp, ?_⟩
  simp only [runWords, h₁, h₂]
  exact ⟨_, rfl⟩

theorem witness_ReadingCommandsAreRepeatable :
    (∃ t, exec (.rdig 31) finalized = .next t) ∧ finalized.FIN = true ∧ (∃ t, exec .init finalized = .next t) :=
  ⟨⟨_, rfl⟩, rfl, ⟨_, rfl⟩⟩

theorem witness_EnginesShareNoMutableState :
    ∃ a b, (1 : Fin 2) ≠ 0 ∧ moveAt (0 : Fin 2) (.command 0x6000) #v[openAt 3, finalized] = .next a ∧
      moveAt (1 : Fin 2) (.command 0x5000) a = .next b :=
  ⟨_, _, by decide, rfl, rfl⟩

theorem witness_ByteViewOfTheLanes :
    (199 < 200) ∧ (200 ≤ 200) ∧ ∀ k < 200, memRead zeroLanes k = memRead State.reset.S k :=
  ⟨by decide, by decide, fun _ _ => rfl⟩

theorem witness_ThetaIsItsFormulaAndLinear :
    ∀ x : Coord, (thetaC (lanesOf [(0, 1), (5, 1)]))[x] = 0 := by
  decide +kernel

theorem witness_ChiCombinesEachRow :
    ∀ x, laneAt (lanesOf [(5, 0xFFFFFFFFFFFFFFFF), (6, 0xFFFFFFFFFFFFFFFF), (7, 0xFFFFFFFFFFFFFFFF), (8, 0xFFFFFFFFFFFFFFFF), (9, 0xFFFFFFFFFFFFFFFF)]) x 1 = 0xFFFFFFFFFFFFFFFF := by
  decide +kernel

/-- A word of 25 cycles and one of 1 cycle. -/
theorem witness_ClockCompletesTheAtomicStep :
    Ready (openAt 0) ∧ (PortsIn.mk false true 0x3000).rst = false ∧ (PortsIn.mk false true 0x3000).cmdValid = true ∧
    (∀ q ∈ List.replicate 24 (PortsIn.mk false true 0x7000), q.rst = false) ∧
    (List.replicate 24 (PortsIn.mk false true 0x7000)).length + 1 = commandCycles 0x3000 (openAt 0) ∧
    ([] : List PortsIn).length + 1 = commandCycles 0x3000 finalized ∧
    ∃ t, acceptWord 0x3000 (openAt 0) = .next t :=
  ⟨by decide, rfl, rfl, by decide, by decide, by decide, acceptWord_next 0x3000 (by decide)⟩

theorem witness_BusyEngineIgnoresTheCommandPort :
    ({ State.reset with busy := true }).busy = true ∧ (PortsIn.mk false true 0x3000).rst = false := by decide

theorem witness_TimingIsIndependentOfData :
    Ready (openAt 135) ∧ Ready { State.reset with offset := 135, S := lanesOf [(3, 5)] } ∧
    opField 0x2000 = opField 0x20FF ∧ legal 0x2000 = legal 0x20FF ∧
    ([] : List PortsIn).length < commandCycles 0x2000 (openAt 135) ∧
    (∃ a, ticks [⟨false, true, 0x2000⟩] (openAt 135) = .next a) ∧
    (∃ b, ticks [⟨false, true, 0x20FF⟩] { State.reset with offset := 135, S := lanesOf [(3, 5)] } = .next b) :=
  ⟨by decide, by decide +kernel, by decide, by decide, by decide, ⟨_, rfl⟩, ⟨_, rfl⟩⟩

theorem witness_ResponseIsValidForOneCycle :
    (accepts ⟨false, true, 0x5000⟩ (openAt 0) = true ∧ ∃ t, tick ⟨false, true, 0x5000⟩ (openAt 0) = .next t) ∧
    (accepts ⟨false, false, 0x5000⟩ (openAt 0) = false ∧ ∃ t, tick ⟨false, false, 0x5000⟩ (openAt 0) = .next t) :=
  ⟨⟨by decide, ⟨_, rfl⟩⟩, ⟨by decide, ⟨_, rfl⟩⟩⟩

theorem witness_EveryEdgeKeepsTheInvariants : Invariants { openAt 135 with busy := true, ir := 23 } := by decide

/-- A string with an illegal word and an RSTAT between its bytes. -/
theorem witness_AbsorbedStringIsTheSpongeAbsorption :
    (openAt 0).FIN = false ∧ (openAt 0).offset = 0 ∧
    (∀ w ∈ [0x2061#16, 0x7000#16, 0x5000#16, 0x2062#16], w ≠ 0x1000 ∧ w ≠ 0x3000) ∧
    absorbedBytes [0x2061, 0x7000, 0x5000, 0x2062] = [0x61, 0x62] := by
  exact ⟨by decide, by decide, by simp, by decide⟩

theorem witness_SessionIsItsPartsInOrder :
    Ready { openAt 3 with inbox := [.command 0x6000, .command 0x7000, .command 0x5000, .reset] } ∧
    [HostMove.command 0x6000, .command 0x7000, .command 0x5000, .reset] =
      ([0x6000, 0x7000] ++ [0x5000]).map .command ++ [.reset] := by decide

/-- The last round alone, and all 24. -/
theorem witness_FinishingIsTheRestOfTheRounds :
    State.reset.busy = false ∧
    (let s := { State.reset with busy := true, ir := 23 }
     s.busy = true ∧ [PortsIn.mk false true 0x7000].length = 24 - s.ir.val) ∧
    (let s := { State.reset with busy := true }
     s.busy = true ∧ (List.replicate 24 (PortsIn.mk false false 0)).length = 24 - s.ir.val) ∧
    (∀ q ∈ List.replicate 24 (PortsIn.mk false false 0), q.rst = false) := by
  exact ⟨by decide, by decide, by decide, by decide⟩

theorem witness_AssembledWordsAreLegal :
    ((∀ w, Line.zeros 3 ≠ .word w) ∧ (Line.zeros 3).assemble = some [0x2000, 0x2000, 0x2000]) ∧
    ((256 ∈ [1, 256]) ∧ (Line.absorb 256).assemble = none ∧ Line.absorb 256 ∈ [Line.nop, .absorb 256]) ∧
    ((∀ l ∈ [Line.nop, .rdig 31], ∀ w, l ≠ .word w) ∧ assembleLines [.nop, .rdig 31] = some [0x0000, 0x401F]) ∧
    parseLines ["NOP".toList, "ABSORB 256".toList] = some [.nop, .absorb 256] ∧
    parseLines ["NOP".toList, "RDIG 31".toList] = some [.nop, .rdig 31] :=
  ⟨⟨fun _ h => (by cases h), by decide⟩, by decide, ⟨by simp, by decide⟩, by decide +kernel, by decide +kernel⟩

theorem witness_RotationMovesEveryBit : (63 < 64) ∧ (0 < 64) := by decide

theorem witness_IotaChangesOnlyLaneZero : ((1, 0) : Coord × Coord) ≠ (0, 0) := by decide

end Sys2Proof.Tests
end

/-! PROOFS. The statements of 10_state.md: the byte view of `S`, the invariants of R34 at every step and every edge, what a finalized context and the capacity keep, and the completion of a permutation in progress. -/

namespace Sys2Proof.Machine

variable {s t : State}

/-! ### The byte view of the lanes (R22) -/

/-- A byte of a lane in the shift form of R22. -/
theorem laneByte_eq_shift (v : Lane) (j : Nat) : laneByte v j = (v >>> (8 * j)).setWidth 8 := by
  apply BitVec.eq_of_getLsbD_eq
  intro i hi
  rw [laneByte_getLsbD v j i hi]
  simp [hi]

/-- Byte `8i + j` of the state is byte `j` of lane `i` (R22). -/
theorem memRead_lane (A : Lanes) (i : Fin 25) {j : Nat} (hj : j < 8) :
    memRead A (8 * i.val + j) = some (laneByte A[i] j) := by
  have hdiv : (8 * i.val + j) / 8 = i.val := by omega
  have hmod : (8 * i.val + j) % 8 = j := by omega
  rw [memRead_of_lt A (by omega)]
  simp only [hdiv, hmod, Fin.getElem_fin]

/-- There is no byte to write outside the space (R40). -/
theorem memWrite_of_ge (A : Lanes) {k : Nat} (h : 200 ≤ k) (b : Byte) : memWrite A k b = none := by
  unfold memWrite; rw [dif_neg (by omega)]

/-- Settles O32: a read is a byte of a lane, and a write is read back by `memRead_memWrite`. -/
theorem byteViewOfTheLanes : Obligations.ByteViewOfTheLanes := by
  refine ⟨fun A i j hj => ?_, fun A k v hk => ?_, fun A k v hk => ⟨memRead_of_ge A hk, memWrite_of_ge A hk v⟩,
    fun A B h => lanes_ext_bytes h⟩
  · rw [memRead_lane A i hj, laneByte_eq_shift]
  · obtain ⟨A', hA'⟩ := Option.isSome_iff_exists.1 ((memWrite_isSome A k v).2 hk)
    exact ⟨A', hA', memRead_memWrite hA'⟩

/-! ### The operations keep an engine ready (R34) -/

/-- A ready engine stays ready when its context is written and `offset` stays a rate byte. -/
theorem ready_withContext (h : Ready s) (A : Lanes) {o : BitVec 8} (F : Bool) (ho : o.toNat < Config.rateBytes) :
    Ready { noResponse s with S := A, offset := o, FIN := F } :=
  ⟨⟨ho, h.1.2⟩, h.2⟩

theorem ready_noResponse (h : Ready s) : Ready (noResponse s) := h

theorem ready_respond (v : Byte) (h : Ready s) : Ready (respond v s) := h

/-- The error record stays consistent: the code recorded is one of R151's 1 to 4. -/
theorem ready_raiseError (e : ErrorName) (h : Ready s) : Ready (raiseError e s) := by
  obtain ⟨⟨hoff, _, hcode, hir⟩, hbusy⟩ := h
  refine ⟨⟨by simpa using hoff, by simp, fun _ => ?_, by simpa using hir⟩, by simpa using hbusy⟩
  cases hE : s.ERR with
  | true => simpa [hE] using hcode hE
  | false => simpa [hE] using code_range e

theorem ready_newContext (h : Ready s) : Ready (newContext s) := by
  obtain ⟨⟨_, _, _, hir⟩, hbusy⟩ := h
  exact ⟨⟨by simp, by simp, by simp, hir⟩, hbusy⟩

/-- A whole permutation leaves the sequencer at rest, and the registers of R34 as they are. -/
theorem ready_permute (h : Invariants s) : Ready (permute s) := by
  obtain ⟨hoff, hclean, hcode, _⟩ := h
  exact ⟨⟨hoff, hclean, hcode, fun _ => rfl⟩, rfl⟩

theorem ready_resetEngine (s : State) : Ready (resetEngine s) :=
  ⟨⟨by simp, by simp, by simp, by simp⟩, rfl⟩

/-- Completing a permutation in progress, or having none, leaves the engine ready (R175). -/
theorem ready_finishPermutation (h : Invariants s) : Ready (finishPermutation s) := by
  obtain ⟨hoff, hclean, hcode, hir⟩ := h
  refine ⟨⟨by simpa using hoff, by simpa using hclean, by simpa using hcode, fun _ => ?_⟩, by simp⟩
  cases hbusy : s.busy with
  | true => simp [hbusy]
  | false => simpa [hbusy] using hir hbusy

/-- While the round mapper is started, I1 and the error record hold (R176). -/
theorem invariants_startPermutation (h : Invariants s) : Invariants (startPermutation s) := by
  obtain ⟨hoff, hclean, hcode, _⟩ := h
  exact ⟨hoff, hclean, hcode, fun _ => rfl⟩

/-- The mapper comes to rest exactly as its index returns to 0 (R30). -/
theorem invariants_roundCycle (h : Invariants s) : Invariants (roundCycle s) := by
  obtain ⟨hoff, hclean, hcode, _⟩ := h
  refine ⟨hoff, hclean, hcode, fun hrest => ?_⟩
  have hlast : s.ir = 23 := by simpa using hrest
  rw [roundCycle_ir, if_pos hlast]

/-- The next `offset` of a block that is not full is still a rate byte (I1). -/
theorem offset_succ_lt (h : s.offset.toNat < Config.rateBytes) (hne : s.offset ≠ 135) :
    (s.offset + 1).toNat < Config.rateBytes := by
  have hlt : s.offset.toNat < 136 := h
  change (s.offset + 1).toNat < 136
  bv_omega

/-! ### The commands keep an engine ready -/

section Permuting

/-! ABSORB and FINAL from a ready engine, for both ways their permutation is run: `P` is what the permutation `perm`
leaves, `Ready` when it is run whole and `Invariants` when it is only started. -/

variable {perm : State → State} {P : State → Prop}
  (hperm : ∀ q, Ready q → P (perm q)) (hready : ∀ q, Ready q → P q)

include hperm hready

theorem absorbWith_of_ready {b : Byte} (h : Ready s) (e : absorbWith perm b s = .next t) : P t := by
  obtain ⟨_, rfl⟩ | ⟨_, A, _, ⟨_, rfl⟩ | ⟨hne, rfl⟩⟩ := absorbWith_cases e
  · exact hready _ (ready_raiseError _ (ready_noResponse h))
  · exact hperm _ (ready_withContext h A s.FIN (by decide))
  · exact hready _ (ready_withContext h A s.FIN (offset_succ_lt h.1.1 hne))

theorem finalWith_of_ready (h : Ready s) (e : finalWith perm s = .next t) : P t := by
  obtain ⟨_, rfl⟩ | ⟨_, A, _, rfl⟩ := finalWith_cases e
  · exact hready _ (ready_raiseError _ (ready_noResponse h))
  · exact hperm _ (ready_withContext h A true h.1.1)

end Permuting

/-- A command run whole leaves a ready engine ready (R44). -/
theorem exec_ready {i : Instr} (h : Ready s) (e : exec i s = .next t) : Ready t := by
  cases i with
  | nop => cases e; exact ready_noResponse h
  | init => cases e; exact ready_noResponse (ready_newContext h)
  | absorb b => exact absorbWith_of_ready (fun _ hq => ready_permute hq.1) (fun _ hq => hq) h e
  | final => exact finalWith_of_ready (fun _ hq => ready_permute hq.1) (fun _ hq => hq) h e
  | rdig k =>
    obtain ⟨_, rfl⟩ | ⟨_, rfl⟩ := execRdig_cases e
    · exact ready_respond _ h
    · exact ready_respond _ (ready_raiseError _ h)
  | rstat => cases e; exact ready_respond _ h
  | roff => cases e; exact ready_respond _ h

theorem ready_acceptIllegal (h : Ready s) : Ready (acceptIllegal s) := ready_raiseError _ (ready_noResponse h)

/-- An accepted word leaves a ready engine ready (R120). -/
theorem acceptWord_ready {w : CommandWord} (h : Ready s) (e : acceptWord w s = .next t) : Ready t := by
  obtain ⟨i, _, hi⟩ | ⟨_, _, ht⟩ := acceptWord_cases e
  · exact exec_ready h hi.symm
  · cases ht; exact ready_acceptIllegal h

/-- I1 keeps `offset` inside the byte space, so that no command faults. -/
theorem offset_lt_stateBytes (h : Invariants s) : s.offset.toNat < 200 := Nat.lt_trans h.1 (by decide)

/-- A word accepted by a ready engine has a next state, and it is ready (R150). -/
theorem acceptWord_next_ready (w : CommandWord) (h : Ready s) : ∃ t, acceptWord w s = .next t ∧ Ready t := by
  obtain ⟨t, ht⟩ := acceptWord_next w (offset_lt_stateBytes h.1)
  exact ⟨t, ht, acceptWord_ready h ht⟩

/-! ### The step (R120, R150) -/

/-- Each of the host's moves has a next state, and leaves the engine ready. -/
theorem hostMove_next_ready (m : HostMove) (h : Invariants s) : ∃ t, hostMove m s = .next t ∧ Ready t := by
  cases m with
  | reset => exact ⟨_, rfl, ready_resetEngine s⟩
  | command w => exact acceptWord_next_ready w (ready_finishPermutation h)
  | idle => exact ⟨_, rfl, ready_noResponse (ready_finishPermutation h)⟩

/-- Settles O8, by the host's next move. -/
theorem everyStepGoesOnAndKeepsTheInvariants : Obligations.EveryStepGoesOnAndKeepsTheInvariants := by
  intro s h
  obtain ⟨_, hstep⟩ | ⟨m, rest, _, hstep⟩ := step_cases s
  · rw [hstep]; exact hostMove_next_ready .idle h
  · rw [hstep]; exact hostMove_next_ready (s := { s with inbox := rest }) m h

/-- Settles O9, by the reset values of R171. -/
theorem resetStateIsReady : Obligations.ResetStateIsReady := by
  unfold Obligations.ResetStateIsReady
  decide

/-! ### The edges of the clock (R171, R175, R176) -/

/-- An edge, whole: reset, a round of the permutation in progress, an accepted word, or an idle cycle. -/
theorem tick_cases (p : PortsIn) (s : State) :
    (p.rst = true ∧ tick p s = .next (resetEngine s)) ∨
    (p.rst = false ∧ s.busy = true ∧ tick p s = .next (roundCycle s)) ∨
    (p.rst = false ∧ s.busy = false ∧ accepts p s = true ∧ tick p s = acceptEdge p.cmdWord s) ∨
    (p.rst = false ∧ s.busy = false ∧ accepts p s = false ∧ tick p s = .next (idleCycle s)) := by
  unfold tick
  cases hrst : p.rst with
  | true => simp
  | false =>
    cases hbusy : s.busy with
    | true => simp
    | false => cases hacc : accepts p s <;> simp

/-- Where `offset` is a byte of the space, the edge that accepts a word has a next state. -/
theorem acceptEdge_next (w : CommandWord) (h : s.offset.toNat < 200) : ∃ t, acceptEdge w s = .next t := by
  unfold acceptEdge
  split
  · next i _ =>
    cases i with
    | absorb b => exact absorbWith_next startPermutation b h
    | final => exact finalWith_next startPermutation h
    | nop => exact exec_next .nop h
    | init => exact exec_next .init h
    | rdig k => exact exec_next (.rdig k) h
    | rstat => exact exec_next .rstat h
    | roff => exact exec_next .roff h
  · exact ⟨_, rfl⟩

/-- The first edge of a command keeps the invariants: it starts a permutation or is the whole command. -/
theorem execEdge_invariants {i : Instr} (h : Ready s) (e : execEdge i s = .next t) : Invariants t := by
  cases i with
  | absorb b => exact absorbWith_of_ready (fun _ hq => invariants_startPermutation hq.1) (fun _ hq => hq.1) h e
  | final => exact finalWith_of_ready (fun _ hq => invariants_startPermutation hq.1) (fun _ hq => hq.1) h e
  | nop => exact (exec_ready (i := .nop) h e).1
  | init => exact (exec_ready (i := .init) h e).1
  | rdig k => exact (exec_ready (i := .rdig k) h e).1
  | rstat => exact (exec_ready (i := .rstat) h e).1
  | roff => exact (exec_ready (i := .roff) h e).1

theorem acceptEdge_invariants {w : CommandWord} (h : Ready s) (e : acceptEdge w s = .next t) : Invariants t := by
  unfold acceptEdge at e
  split at e
  · exact execEdge_invariants h e
  · cases e; exact (ready_acceptIllegal h).1

/-- Settles O48, by the kind of the edge. -/
theorem everyEdgeKeepsTheInvariants : Obligations.EveryEdgeKeepsTheInvariants := by
  intro p s h
  obtain ⟨_, ht⟩ | ⟨_, _, ht⟩ | ⟨_, hbusy, _, ht⟩ | ⟨_, hbusy, _, ht⟩ := tick_cases p s
  · exact ⟨_, ht, (ready_resetEngine s).1⟩
  · exact ⟨_, ht, invariants_roundCycle h⟩
  · obtain ⟨t, he⟩ := acceptEdge_next p.cmdWord (offset_lt_stateBytes h)
    exact ⟨t, ht.trans he, acceptEdge_invariants ⟨h, hbusy⟩ he⟩
  · exact ⟨_, ht, (ready_noResponse ⟨h, hbusy⟩).1⟩

/-! ### What words leave of the context (R23, R134) -/

/-- Only the word 0x1000 is INIT (R62). -/
theorem eq_of_decode_init {w : CommandWord} (h : decode w = .ok .init) : w = 0x1000 := by
  have hsel : rowInit.selects w = true := by
    by_contra hn
    rw [decode, if_neg hn] at h
    split_ifs at h <;> cases h
  have hmask : w &&& BitVec.allOnes 16 = 0x1000 := eq_of_beq hsel
  rwa [BitVec.and_allOnes] at hmask

/-- While `FIN = 1`, a command other than INIT leaves the context as it is (R134). -/
theorem exec_finalized_frame {i : Instr} (hf : s.FIN = true) (hi : i ≠ .init) (e : exec i s = .next t) :
    t.S = s.S ∧ t.offset = s.offset ∧ t.FIN = s.FIN := by
  cases i with
  | init => exact absurd rfl hi
  | nop => cases e; simp
  | rstat => cases e; simp
  | roff => cases e; simp
  | absorb b => cases (absorbWith_finalized permute b hf).symm.trans e; simp
  | final => cases (finalWith_finalized permute hf).symm.trans e; simp
  | rdig k => cases (execRdig_finalized k hf).symm.trans e; simp

/-- Settles O27, by `exec_finalized_frame`. -/
theorem finalizedContextIsFixed : Obligations.FinalizedContextIsFixed := by
  intro s t w hf hw e
  obtain ⟨i, hd, hi⟩ | ⟨_, _, ht⟩ := acceptWord_cases e
  · have hne : i ≠ .init := fun h => hw (eq_of_decode_init (h ▸ hd))
    simpa [hf] using exec_finalized_frame hf hne hi.symm
  · cases ht; simp [acceptIllegal, hf]

/-- ABSORB's XOR leaves the capacity bytes (R23). -/
theorem absorbByte_capacity {b : Byte} {A : Lanes} (h : s.offset.toNat < Config.rateBytes)
    (hA : absorbByte b s = some A) {k : Nat} (hk : Config.rateBytes ≤ k) : memRead A k = memRead s.S k := by
  obtain ⟨A', hA', hread⟩ := absorbByte_spec (s := s) b (Nat.lt_trans h (by decide))
  obtain rfl : A = A' := Option.some.inj (hA.symm.trans hA')
  rw [hread, if_neg (by omega)]

/-- FINAL's padding leaves the capacity bytes (R23). -/
theorem padBlock_capacity {A : Lanes} (h : s.offset.toNat < Config.rateBytes)
    (hA : padBlock s = some A) {k : Nat} (hk : Config.rateBytes ≤ k) : memRead A k = memRead s.S k := by
  obtain ⟨A', hA', hread⟩ := padBlock_spec (s := s) (Nat.lt_trans h (by decide))
  obtain rfl : A = A' := Option.some.inj (hA.symm.trans hA')
  have hlast : k ≠ 135 := by simp only [Config.rateBytes] at hk; omega
  rw [hread, if_neg hlast, if_neg (by omega)]

/-- What a command does to the capacity: keeps it, permutes a state that has it, or is INIT (R23). -/
theorem exec_capacity {i : Instr} (h : s.offset.toNat < Config.rateBytes) (e : exec i s = .next t) :
    (∀ k, Config.rateBytes ≤ k → memRead t.S k = memRead s.S k) ∨
    (∃ A : Lanes, (∀ k, Config.rateBytes ≤ k → memRead A k = memRead s.S k) ∧ t.S = keccakF A) ∨
    (i = .init ∧ t.S = zeroLanes) := by
  cases i with
  | init => cases e; exact .inr (.inr ⟨rfl, rfl⟩)
  | nop => cases e; exact .inl fun _ _ => rfl
  | rstat => cases e; exact .inl fun _ _ => rfl
  | roff => cases e; exact .inl fun _ _ => rfl
  | rdig k => obtain ⟨_, rfl⟩ | ⟨_, rfl⟩ := execRdig_cases e <;> exact .inl fun _ _ => by simp
  | absorb b =>
    obtain ⟨_, rfl⟩ | ⟨_, A, hA, ⟨_, rfl⟩ | ⟨_, rfl⟩⟩ := absorbWith_cases e
    · exact .inl fun _ _ => by simp
    · exact .inr (.inl ⟨A, fun _ => absorbByte_capacity h hA, rfl⟩)
    · exact .inl fun _ => absorbByte_capacity h hA
  | final =>
    obtain ⟨_, rfl⟩ | ⟨_, A, hA, rfl⟩ := finalWith_cases e
    · exact .inl fun _ _ => by simp
    · exact .inr (.inl ⟨A, fun _ => padBlock_capacity h hA, rfl⟩)

/-- Settles O28, by `exec_capacity`. -/
theorem capacityChangesOnlyThroughKeccakF : Obligations.CapacityChangesOnlyThroughKeccakF := by
  intro s t w h e
  obtain ⟨i, hd, hi⟩ | ⟨_, _, ht⟩ := acceptWord_cases e
  · obtain hkeep | hperm | ⟨rfl, hzero⟩ := exec_capacity h.1 hi.symm
    · exact .inl hkeep
    · exact .inr (.inl hperm)
    · exact .inr (.inr ⟨eq_of_decode_init hd, hzero⟩)
  · cases ht; exact .inl fun _ _ => by simp [acceptIllegal]

/-! ### A permutation in progress (R104, R175, R176) -/

theorem equalButScratch_trans {u : State} (h : EqualButScratch s t) (h' : EqualButScratch t u) :
    EqualButScratch s u :=
  (congrArg (fun q : State => { q with B := u.B, C := u.C, D := u.D, draws := u.draws }) h).trans h'

/-- New scratch lanes are no difference. -/
theorem equalButScratch_redrawScratch (s : State) : EqualButScratch (redrawScratch s) s := rfl

/-- An edge without a reset while a permutation is in progress (R176). -/
theorem ticks_cons_of_busy {p : PortsIn} (ps : List PortsIn) (hb : s.busy = true) (hp : p.rst = false) :
    ticks (p :: ps) s = ticks ps (roundCycle s) := by
  simp [ticks, tick, hp, hb]

/-- The next round's number while it is not the last. -/
theorem roundCycle_ir_val (h : s.ir ≠ 23) : (roundCycle s).ir.val = s.ir.val + 1 := by
  rw [roundCycle_ir, if_neg h]
  exact Fin.val_add_one_of_lt (Fin.lt_last_iff_ne_last.2 h)

/-- The last round is the whole rest of the permutation. -/
theorem roundCycle_last (hb : s.busy = true) (h : s.ir = 23) : roundCycle s = finishPermutation s := by
  rw [finishPermutation_of_busy hb]
  simp only [roundCycle, h]
  rfl

/-- One clock of a permutation in progress leaves the same rest of it to do. -/
theorem finishPermutation_roundCycle (hb : s.busy = true) (h : s.ir ≠ 23) :
    EqualButScratch (finishPermutation (roundCycle s)) (finishPermutation s) := by
  have hleft : 24 - s.ir.val = (24 - (s.ir.val + 1)) + 1 := by omega
  have hround : rounds (24 - s.ir.val) s.ir.val s.S =
      rounds (24 - (s.ir.val + 1)) (s.ir.val + 1) (roundFn s.S s.ir) := by
    rw [hleft, rounds, Fin.ofNat_val_eq_self]
  have hb' : (roundCycle s).busy = true := by simp [h]
  simp only [finishPermutation, hb, hb', if_true, roundCycle_ir_val h, hround]
  rfl

/-- Before the rounds are over the engine is busy, at the round as many edges on (R176). -/
theorem ticks_busy {ps : List PortsIn} (hb : s.busy = true) (hp : ∀ q ∈ ps, q.rst = false)
    (hlen : ps.length < 24 - s.ir.val) :
    ∃ v, ticks ps s = .next v ∧ v.busy = true ∧ v.ir.val = s.ir.val + ps.length := by
  induction ps generalizing s with
  | nil => exact ⟨s, rfl, hb, rfl⟩
  | cons p ps ih =>
    simp only [List.length_cons] at hlen
    have hir : s.ir ≠ 23 := by rintro h; rw [h] at hlen; simp at hlen
    have hnext := roundCycle_ir_val hir
    obtain ⟨v, hv, hbusy, hround⟩ :=
      ih (s := roundCycle s) (by simp [hir]) (fun q hq => hp q (List.mem_cons_of_mem p hq)) (by omega)
    refine ⟨v, ?_, hbusy, by rw [hround, hnext, List.length_cons]; omega⟩
    rw [ticks_cons_of_busy ps hb (hp p List.mem_cons_self), hv]

/-- The `24 - ir` edges that are left do what the completion does (R104, R175). -/
theorem ticks_finish {ps : List PortsIn} (hb : s.busy = true) (hp : ∀ q ∈ ps, q.rst = false)
    (hlen : ps.length = 24 - s.ir.val) :
    ∃ u, ticks ps s = .next u ∧ EqualButScratch u (finishPermutation s) := by
  induction ps generalizing s with
  | nil => simp only [List.length_nil] at hlen; omega
  | cons p ps ih =>
    rw [ticks_cons_of_busy ps hb (hp p List.mem_cons_self)]
    simp only [List.length_cons] at hlen
    by_cases hir : s.ir = 23
    · obtain rfl : ps = [] := List.eq_nil_of_length_eq_zero (by rw [hir] at hlen; simpa using hlen)
      exact ⟨_, rfl, by rw [roundCycle_last hb hir]⟩
    · have hnext := roundCycle_ir_val hir
      obtain ⟨u, hu, heq⟩ :=
        ih (s := roundCycle s) (by simp [hir]) (fun q hq => hp q (List.mem_cons_of_mem p hq)) (by omega)
      exact ⟨u, hu, equalButScratch_trans heq (finishPermutation_roundCycle hb hir)⟩

/-- Settles O55, by induction on the edges: `ticks_finish` and `ticks_busy`. -/
theorem finishingIsTheRestOfTheRounds : Obligations.FinishingIsTheRestOfTheRounds := by
  refine ⟨fun s => finishPermutation_of_ready, fun s hb => ?_, fun s ps hb hp hlen =>
    ⟨ticks_finish hb hp hlen, fun n hn => ?_⟩⟩
  · rw [finishPermutation_of_busy hb]
    exact equalButScratch_redrawScratch _
  · obtain ⟨v, hv, hbusy, _⟩ := ticks_busy (ps := ps.take n) hb (fun q hq => hp q (List.mem_of_mem_take hq))
      (by rw [List.length_take]; omega)
    exact ⟨v, hv, hbusy⟩

end Sys2Proof.Machine

/-! PROOFS. The statements of 20_memory.md: what a host can tell from the responses (R47), the clock and the atomic step (R44), the reading commands (R45), the engines of a system (R53), and sessions cut anywhere (R48). -/

namespace Sys2Proof.Machine

variable {s t : State}

/-! ### What the host can tell (R47, R165) -/

/-- Only the word 0x3000 is FINAL (R62). -/
theorem eq_of_decode_final {w : CommandWord} (h : decode w = .ok .final) : w = 0x3000 := by
  have hsel : rowFinal.selects w = true := by
    by_contra hn
    rw [decode, if_neg hn] at h
    split_ifs at h <;> cases h
  have hmask : w &&& BitVec.allOnes 16 = 0x3000 := eq_of_beq hsel
  rwa [BitVec.and_allOnes] at hmask

theorem agree_noResponse (h : AgreeToTheHost s t) : AgreeToTheHost (noResponse s) (noResponse t) := by
  obtain ⟨hoff, hfin, herr, hcode, hbyte, _, hdigest⟩ := h
  exact ⟨hoff, hfin, herr, hcode, hbyte, rfl, hdigest⟩

theorem agree_respond (v : Byte) (h : AgreeToTheHost s t) : AgreeToTheHost (respond v s) (respond v t) := by
  obtain ⟨hoff, hfin, herr, hcode, _, _, hdigest⟩ := h
  exact ⟨hoff, hfin, herr, hcode, rfl, rfl, hdigest⟩

theorem agree_raiseError (e : ErrorName) (h : AgreeToTheHost s t) :
    AgreeToTheHost (raiseError e s) (raiseError e t) := by
  obtain ⟨hoff, hfin, herr, hcode, hbyte, hvalid, hdigest⟩ := h
  exact ⟨by simpa using hoff, by simpa using hfin, by simp, by simp [herr, hcode], by simpa using hbyte,
    by simpa using hvalid, by simpa using hdigest⟩

/-- A new context is the same whatever the old one held. -/
theorem agree_newContext (h : AgreeToTheHost s t) : AgreeToTheHost (newContext s) (newContext t) := by
  obtain ⟨_, _, _, _, hbyte, hvalid, _⟩ := h
  exact ⟨rfl, rfl, rfl, rfl, hbyte, hvalid, fun _ _ _ => rfl⟩

/-- While the context is open, what the state bytes become is no difference to the host. -/
theorem agree_withOpenContext (h : AgreeToTheHost s t) (hf : s.FIN = false) (A A' : Lanes) (o : BitVec 8) :
    AgreeToTheHost { noResponse s with S := A, offset := o } { noResponse t with S := A', offset := o } := by
  obtain ⟨_, hfin, herr, hcode, hbyte, _, _⟩ := h
  exact ⟨rfl, hfin, herr, hcode, hbyte, rfl, fun hopen => by simp [hf] at hopen⟩

/-- A permutation of an open context is no difference to the host. -/
theorem agree_permute (h : AgreeToTheHost s t) (hf : s.FIN = false) : AgreeToTheHost (permute s) (permute t) := by
  obtain ⟨hoff, hfin, herr, hcode, hbyte, hvalid, _⟩ := h
  exact ⟨hoff, hfin, herr, hcode, hbyte, hvalid, fun hopen => by simp [hf] at hopen⟩

/-- RDIG's byte is the state byte of its index (R127). -/
theorem memRead_digest (k : BitVec 5) (s : State) : memRead s.S k.toNat = some (digestByte k s) :=
  memRead_of_lt s.S (by omega)

/-- Engines that agree squeeze the same byte. -/
theorem agree_digestByte (h : AgreeToTheHost s t) (hf : s.FIN = true) (k : BitVec 5) :
    digestByte k s = digestByte k t := by
  obtain ⟨_, _, _, _, _, _, hdigest⟩ := h
  have hread := hdigest hf k.toNat k.isLt
  rw [memRead_digest, memRead_digest] at hread
  exact Option.some.inj hread

theorem agree_statusByte (h : AgreeToTheHost s t) : statusByte s = statusByte t := by
  obtain ⟨_, hfin, herr, hcode, _⟩ := h
  simp only [statusByte, hfin, herr, hcode]

theorem agree_offsetByte (h : AgreeToTheHost s t) : offsetByte s = offsetByte t := h.1

theorem agree_response (h : AgreeToTheHost s t) : s.response = t.response := by
  obtain ⟨_, _, _, _, hbyte, hvalid, _⟩ := h
  simp only [State.response, hbyte, hvalid]

/-- ABSORB's byte is in the space, so that another engine at the same `offset` has it too. -/
theorem absorbByte_of_offset_eq {b : Byte} {A : Lanes} (hA : absorbByte b s = some A) (ho : s.offset = t.offset) :
    ∃ A', absorbByte b t = some A' := by
  have hlt : s.offset.toNat < 200 := by
    by_contra hge
    have hnone : absorbByte b s = none := memXor_of_ge s.S (by unfold absorbPosition; omega) b
    simp [hnone] at hA
  obtain ⟨A', hA', _⟩ := absorbByte_spec (s := t) b (ho ▸ hlt)
  exact ⟨A', hA'⟩

/-- ABSORB keeps the agreement: the byte it writes is hidden from the host. -/
theorem execAbsorb_agree {b : Byte} {s' : State} (h : AgreeToTheHost s t) (e : execAbsorb b s = .next s') :
    ∃ t', execAbsorb b t = .next t' ∧ AgreeToTheHost s' t' := by
  have ⟨hoff, hfin, _⟩ := h
  obtain ⟨hf, rfl⟩ | ⟨hf, A, hA, ho⟩ := absorbWith_cases e
  · exact ⟨_, absorbWith_finalized permute b (hfin ▸ hf), agree_raiseError _ (agree_noResponse h)⟩
  · obtain ⟨A', hA'⟩ := absorbByte_of_offset_eq hA hoff
    obtain ⟨ho, rfl⟩ | ⟨ho, rfl⟩ := ho
    · exact ⟨_, absorbWith_full permute (hfin ▸ hf) hA' (hoff ▸ ho),
        agree_permute (agree_withOpenContext h hf A A' 0) hf⟩
    · exact ⟨_, absorbWith_partial permute (hfin ▸ hf) hA' (hoff ▸ ho),
        hoff ▸ agree_withOpenContext h hf A A' (s.offset + 1)⟩

/-- RDIG keeps the agreement: its byte is one of those the host may know. -/
theorem execRdig_agree {k : BitVec 5} {s' : State} (h : AgreeToTheHost s t) (e : execRdig k s = .next s') :
    ∃ t', execRdig k t = .next t' ∧ AgreeToTheHost s' t' := by
  have ⟨_, hfin, _⟩ := h
  obtain ⟨hf, rfl⟩ | ⟨hf, rfl⟩ := execRdig_cases e
  · refine ⟨_, execRdig_finalized k (hfin ▸ hf), ?_⟩
    rw [agree_digestByte h hf k]
    exact agree_respond _ h
  · exact ⟨_, execRdig_open k (hfin ▸ hf), agree_respond _ (agree_raiseError _ h)⟩

/-- Every command but FINAL keeps two engines alike to the host. -/
theorem exec_agree {i : Instr} {s' : State} (h : AgreeToTheHost s t) (hi : i ≠ .final) (e : exec i s = .next s') :
    ∃ t', exec i t = .next t' ∧ AgreeToTheHost s' t' := by
  cases i with
  | final => exact absurd rfl hi
  | nop => cases e; exact ⟨_, rfl, agree_noResponse h⟩
  | init => cases e; exact ⟨_, rfl, agree_noResponse (agree_newContext h)⟩
  | absorb b => exact execAbsorb_agree h e
  | rdig k => exact execRdig_agree h e
  | rstat => cases e; exact ⟨_, rfl, agree_statusByte h ▸ agree_respond _ h⟩
  | roff => cases e; exact ⟨_, rfl, agree_offsetByte h ▸ agree_respond _ h⟩

/-- Every word but FINAL's keeps two engines alike to the host. -/
theorem acceptWord_agree {w : CommandWord} {s' : State} (h : AgreeToTheHost s t) (hw : w ≠ 0x3000)
    (e : acceptWord w s = .next s') : ∃ t', acceptWord w t = .next t' ∧ AgreeToTheHost s' t' := by
  obtain ⟨i, hd, hi⟩ | ⟨_, hd, hs'⟩ := acceptWord_cases e
  · rw [acceptWord_legal hd]
    exact exec_agree h (fun hfinal => hw (eq_of_decode_final (hfinal ▸ hd))) hi.symm
  · cases hs'
    exact ⟨_, acceptWord_illegal hd, agree_raiseError _ (agree_noResponse h)⟩

/-- A session of at least one word, taken apart (R48). -/
theorem runWords_cons_cases {w : CommandWord} {ws : List CommandWord} {u : Session}
    (h : runWords (w :: ws) s = .next u) :
    ∃ t v, acceptWord w s = .next t ∧ runWords ws t = .next v ∧
      u = ⟨v.state, t.response.toList ++ v.responses, commandCycles w s + v.cycles⟩ := by
  unfold runWords at h
  split at h
  · next t ht =>
    split at h
    · next v hv => cases h; exact ⟨t, v, ht, hv, rfl⟩
    · cases h
    · cases h
  · cases h
  · cases h

/-- A session without FINAL gives two engines that are alike to the host the same responses. -/
theorem runWords_agree {ws : List CommandWord} {u : Session} (hws : ∀ w ∈ ws, w ≠ 0x3000) (h : AgreeToTheHost s t)
    (e : runWords ws s = .next u) : ∃ v, runWords ws t = .next v ∧ v.responses = u.responses := by
  induction ws generalizing s t u with
  | nil =>
    cases e
    exact ⟨_, rfl, rfl⟩
  | cons w ws ih =>
    obtain ⟨hw, hrest⟩ := List.forall_mem_cons.1 hws
    obtain ⟨s', u', hs', hu', rfl⟩ := runWords_cons_cases e
    obtain ⟨t', ht', h'⟩ := acceptWord_agree h hw hs'
    obtain ⟨v, hv, hresp⟩ := ih hrest h' hu'
    exact ⟨_, runWords_cons ht' hv, by rw [agree_response h', hresp]⟩

/-- Settles O29, by `runWords_agree`; the invariants are not needed, since a session that answers has no fault. -/
theorem responsesRevealOnlyTheDigest : Obligations.ResponsesRevealOnlyTheDigest :=
  fun _ _ _ _ hws h _ e => runWords_agree hws h e

/-! ### The clock and the atomic step (R44, R176, R180) -/

/-- The edge at which a ready engine is given a word accepts it (R175). -/
theorem tick_of_command {p : PortsIn} (hb : s.busy = false) (hrst : p.rst = false) (hv : p.cmdValid = true) :
    tick p s = acceptEdge p.cmdWord s := by
  simp [tick, accepts, portsOut, hb, hrst, hv]

/-- The clock's rounds after the start are the whole permutation (R90, R104). -/
theorem finishPermutation_startPermutation (h : s.rspValid = false) :
    finishPermutation (startPermutation s) = permute s := by
  simp only [finishPermutation, startPermutation, if_true, permute, keccakF, h]
  rfl

/-- What the accepting edge does of a command's atomic step: all of it in the one cycle of R180, or the start of the permutation it ends in (R176). -/
def EdgeOf (cycles : Nat) (edge : Result) (t : State) : Prop :=
  (cycles = 1 ∧ edge = .next t) ∨
  (cycles = 25 ∧ ∃ q, q.rspValid = false ∧ edge = .next (startPermutation q) ∧ t = permute q)

/-- The accepting edge of a command, beside its atomic step. -/
theorem execEdge_cases {i : Instr} (e : exec i s = .next t) :
    EdgeOf (if triggersPermutation i s then 25 else 1) (execEdge i s) t := by
  cases i with
  | nop | init | rdig | rstat | roff => exact .inl ⟨rfl, e⟩
  | absorb b =>
    obtain ⟨hf, rfl⟩ | ⟨hf, A, hA, ⟨ho, rfl⟩ | ⟨ho, rfl⟩⟩ := absorbWith_cases e
    · exact .inl ⟨by simp [triggersPermutation, hf], absorbWith_finalized startPermutation b hf⟩
    · exact .inr ⟨by simp [triggersPermutation, hf, ho], _, rfl, absorbWith_full startPermutation hf hA ho, rfl⟩
    · exact .inl ⟨by simpa [triggersPermutation, hf] using ho, absorbWith_partial startPermutation hf hA ho⟩
  | final =>
    obtain ⟨hf, rfl⟩ | ⟨hf, A, hA, rfl⟩ := finalWith_cases e
    · exact .inl ⟨by simp [triggersPermutation, hf], finalWith_finalized startPermutation hf⟩
    · exact .inr ⟨by simp [triggersPermutation, hf], _, rfl, finalWith_open startPermutation hf hA, rfl⟩

/-- The accepting edge of a word, beside its atomic step. -/
theorem acceptEdge_cases {w : CommandWord} (e : acceptWord w s = .next t) :
    EdgeOf (commandCycles w s) (acceptEdge w s) t := by
  obtain ⟨i, hd, hi⟩ | ⟨_, hd, ht⟩ := acceptWord_cases e
  · have hcycles : commandCycles w s = if triggersPermutation i s then 25 else 1 := by
      simp [commandCycles, hd, Config.permCycles]
    have hedge : acceptEdge w s = execEdge i s := by simp [acceptEdge, hd]
    rw [hcycles, hedge]
    exact execEdge_cases hi.symm
  · exact .inl ⟨by simp [commandCycles, hd], by simp [acceptEdge, hd, ht]⟩

/-- Edges one after another. -/
theorem ticks_cons {p : PortsIn} (ps : List PortsIn) (h : tick p s = .next t) : ticks (p :: ps) s = ticks ps t := by
  simp only [ticks, h]

/-- Settles O43: a command of one cycle is complete at its edge, and one that permutes by `ticks_finish` and `ticks_busy`. -/
theorem clockCompletesTheAtomicStep : Obligations.ClockCompletesTheAtomicStep := by
  intro s t p ps hs hrst hv hps hlen e
  have htick := tick_of_command hs.2 hrst hv
  obtain ⟨hone, hedge⟩ | ⟨hperm, q, hq, hedge, rfl⟩ := acceptEdge_cases e
  · obtain rfl : ps = [] := List.eq_nil_of_length_eq_zero (by omega)
    exact ⟨⟨t, ticks_cons [] (htick.trans hedge), (acceptWord_ready hs e).2, rfl⟩, by simp⟩
  · have hbusy : (startPermutation q).busy = true := rfl
    have hir : (startPermutation q).ir.val = 0 := rfl
    have hcons := fun qs => ticks_cons qs (htick.trans hedge)
    refine ⟨?_, fun n hn => ?_⟩
    · obtain ⟨u, hu, heq⟩ := ticks_finish hbusy hps (by omega)
      rw [finishPermutation_startPermutation hq] at heq
      exact ⟨u, (hcons ps).trans hu, congrArg State.busy heq, heq⟩
    · obtain ⟨v, hv, hrunning, _⟩ := ticks_busy (ps := ps.take n) hbusy
        (fun r hr => hps r (List.mem_of_mem_take hr)) (by rw [List.length_take]; omega)
      exact ⟨v, (hcons _).trans hv, hrunning⟩

/-! ### Commands that can be repeated (R45) -/

/-- Settles O30, by the command: each reads only what it leaves as it is. -/
theorem readingCommandsAreRepeatable : Obligations.ReadingCommandsAreRepeatable := by
  refine ⟨fun i s t hi e => ?_, fun s t e => ?_⟩
  · obtain rfl | rfl | rfl | ⟨⟨k, rfl⟩, hf⟩ := hi
    · cases e; exact ⟨rfl, rfl, rfl, rfl, rfl, rfl⟩
    · cases e; exact ⟨rfl, rfl, rfl, rfl, rfl, rfl⟩
    · cases e; exact ⟨rfl, rfl, rfl, rfl, rfl, rfl⟩
    · cases (execRdig_finalized k hf).symm.trans e
      exact ⟨rfl, rfl, rfl, rfl, rfl, execRdig_finalized k hf⟩
  · cases e; rfl

/-! ### Several engines (R53, R164) -/

/-- A move at a port is the move of that port's engine, put back in its place. -/
theorem moveAt_eq_next_iff {n : Nat} {k : Fin n} {m : HostMove} {sys sys' : Engines n} :
    moveAt k m sys = .next sys' ↔ ∃ t, hostMove m sys[k] = .next t ∧ sys' = sys.set k t := by
  unfold moveAt
  constructor
  · intro h
    split at h
    · next t ht => cases h; exact ⟨t, ht, rfl⟩
    · cases h
    · cases h
  · rintro ⟨t, ht, rfl⟩
    simp only [ht]

/-- Settles O31, by `moveAt_eq_next_iff`: a move writes its own place of the vector and reads no other. -/
theorem enginesShareNoMutableState : Obligations.EnginesShareNoMutableState := by
  refine ⟨fun n k m sys sys' h => ?_, fun n k m sys t h => moveAt_eq_next_iff.2 ⟨t, h, rfl⟩,
    fun n j k m q sys a b hjk ha hb => ?_⟩
  · obtain ⟨t, ht, rfl⟩ := moveAt_eq_next_iff.1 h
    exact ⟨by simpa using ht, fun j hj => by simp [Vector.getElem_set_ne, Fin.val_ne_of_ne hj.symm]⟩
  · obtain ⟨t, ht, rfl⟩ := moveAt_eq_next_iff.1 ha
    obtain ⟨r, hr, rfl⟩ := moveAt_eq_next_iff.1 hb
    have hne : j.val ≠ k.val := Fin.val_ne_of_ne hjk
    refine ⟨sys.set k r, moveAt_eq_next_iff.2 ⟨r, ?_, rfl⟩, moveAt_eq_next_iff.2 ⟨t, ?_, ?_⟩⟩
    · simpa [hne] using hr
    · simpa [hne.symm] using ht
    · exact Vector.set_comm _ _ hne

/-! ### Sessions cut anywhere (R48, R132, R175) -/

/-- At least one step, taken apart (R120). -/
theorem runSteps_succ_cases {n : Nat} {u : State} {rs : List Byte} (h : runSteps (n + 1) s = .next (u, rs)) :
    ∃ t qs, step s = .next t ∧ runSteps n t = .next (u, qs) ∧ rs = t.response.toList ++ qs := by
  unfold runSteps at h
  split at h
  · next t ht =>
    split at h
    · next v qs hv => cases h; exact ⟨t, qs, ht, hv, rfl⟩
    · cases h
    · cases h
  · cases h
  · cases h

/-- Steps in two parts. -/
theorem runSteps_add {m n : Nat} {u v : State} {rs qs : List Byte} (hm : runSteps m s = .next (u, rs))
    (hn : runSteps n u = .next (v, qs)) : runSteps (m + n) s = .next (v, rs ++ qs) := by
  induction m generalizing s rs with
  | zero =>
    cases hm
    simpa using hn
  | succ m ih =>
    obtain ⟨t, ps, ht, hps, rfl⟩ := runSteps_succ_cases hm
    rw [Nat.succ_add, List.append_assoc]
    exact runSteps_succ ht (ih hps)

/-- A session in two parts. -/
theorem runWords_append {ws vs : List CommandWord} {u v : Session} (hu : runWords ws s = .next u)
    (hv : runWords vs u.state = .next v) :
    runWords (ws ++ vs) s = .next ⟨v.state, u.responses ++ v.responses, u.cycles + v.cycles⟩ := by
  induction ws generalizing s u with
  | nil =>
    cases hu
    simpa using hv
  | cons w ws ih =>
    obtain ⟨t, u', ht, hu', rfl⟩ := runWords_cons_cases hu
    simpa [Nat.add_assoc] using runWords_cons ht (ih hu' hv)

/-- The steps that take the host's next words are the session of those words, whatever moves `L` follow them. -/
theorem runSteps_words (ws : List CommandWord) (L rest : List HostMove) (hs : Ready s)
    (hi : s.inbox = ws.map .command ++ L) :
    ∃ u : Session, runWords ws { s with inbox := rest } = .next u ∧
      runSteps ws.length s = .next ({ u.state with inbox := L }, u.responses) ∧
      u.state.inbox = rest ∧ Ready u.state := by
  induction ws generalizing s with
  | nil =>
    obtain rfl : s.inbox = L := hi
    exact ⟨_, rfl, rfl, rfl, hs⟩
  | cons w ws ih =>
    obtain ⟨t, ht, hready⟩ := acceptWord_next_ready w hs
    have hstep : step s = .next { t with inbox := ws.map .command ++ L } :=
      (step_command hs.2 hi).trans (acceptWord_inbox _ ht)
    obtain ⟨u, hu, hsteps, hinbox, hu'⟩ := ih (s := { t with inbox := ws.map .command ++ L }) hready rfl
    have hwords := runWords_cons (acceptWord_inbox rest ht) hu
    have hmore := runSteps_succ hstep hsteps
    exact ⟨_, hwords, hmore, hinbox, hu'⟩

/-- Settles O50, by `runSteps_words` for each part. -/
theorem sessionIsItsPartsInOrder : Obligations.SessionIsItsPartsInOrder := by
  intro ws vs rest s hs hi
  obtain ⟨u, hu, husteps, huinbox, huready⟩ :=
    runSteps_words ws (vs.map .command ++ rest) rest hs (by simpa using hi)
  obtain ⟨v, hv, hvsteps, hvinbox, hvready⟩ :=
    runSteps_words (s := { u.state with inbox := vs.map .command ++ rest }) vs rest rest huready rfl
  have hustate : { u.state with inbox := rest } = u.state := by rw [← huinbox]
  have hvstate : { v.state with inbox := rest } = v.state := by rw [← hvinbox]
  replace hv : runWords vs u.state = .next v := hustate ▸ hv
  rw [hvstate] at hvsteps
  exact ⟨u, v, hu, hv, husteps, runSteps_add husteps hvsteps, runWords_append hu hv, hvready⟩

end Sys2Proof.Machine

/-! PROOFS. The statements of 30_encoding.md: the fields and the opcode map in numbers (R60 to R63), decode against encode (R65), the illegal words (R64), and the assembler and disassembler (R67 to R69). -/

namespace Sys2Proof

open Sys2Proof.Machine

/-! ### The fields in numbers (R60, R61) -/

/-- The opcode is the word's highest four bits. -/
theorem opField_eq_iff (w : CommandWord) (c : BitVec 4) : opField w = c ↔ w.toNat / 4096 = c.toNat := by
  rw [← BitVec.toNat_inj, opField, BitVec.extractLsb'_toNat, Nat.shiftRight_eq_div_pow]
  omega

theorem extractLsb'_eq_zero_iff (w : CommandWord) (k n : Nat) :
    w.extractLsb' k n = 0 ↔ w.toNat / 2 ^ k % 2 ^ n = 0 := by
  rw [← BitVec.toNat_inj, BitVec.extractLsb'_toNat, Nat.shiftRight_eq_div_pow]
  rfl

@[simp] theorem toNat_dataField (w : CommandWord) : (dataField w).toNat = w.toNat % 256 := by
  simp [dataField, BitVec.extractLsb'_toNat]

@[simp] theorem toNat_indexField (w : CommandWord) : (indexField w).toNat = w.toNat % 32 := by
  simp [indexField, BitVec.extractLsb'_toNat]

theorem toNat_wordOf (op rsv : BitVec 4) (data : Byte) :
    (wordOf op rsv data).toNat = 4096 * op.toNat + 256 * rsv.toNat + data.toNat := by
  rw [wordOf, BitVec.toNat_append, BitVec.toNat_append, ← Nat.shiftLeft_add_eq_or_of_lt data.isLt,
    ← Nat.shiftLeft_add_eq_or_of_lt rsv.isLt, Nat.shiftLeft_eq, Nat.shiftLeft_eq]
  omega

/-! ### The opcode map in numbers (R62) -/

/-- A mask that leaves out the `k` lowest bits clears them. -/
theorem toNat_and_highMask (w : CommandWord) (k : Nat) :
    (w &&& BitVec.allOnes 16 <<< k).toNat = w.toNat / 2 ^ k * 2 ^ k := by
  have hlt : w.toNat / 2 ^ k * 2 ^ k < 2 ^ 16 := Nat.lt_of_le_of_lt (Nat.div_mul_le_self _ _) w.isLt
  rw [← BitVec.shiftLeft_ushiftRight, BitVec.toNat_shiftLeft, BitVec.toNat_ushiftRight,
    Nat.shiftRight_eq_div_pow, Nat.shiftLeft_eq, Nat.mod_eq_of_lt hlt]

/-- A row whose mask leaves out the `k` lowest bits selects the words that agree with its pattern above them. -/
theorem selects_iff_div {r : Row} {k p : Nat} (hmask : r.mask = BitVec.allOnes 16 <<< k)
    (hpattern : r.pattern.toNat = p * 2 ^ k) (w : CommandWord) : r.selects w = true ↔ w.toNat / 2 ^ k = p := by
  rw [Row.selects, beq_iff_eq, hmask, ← BitVec.toNat_inj, toNat_and_highMask, hpattern,
    Nat.mul_left_inj (Nat.two_pow_pos k).ne']

/-- A row whose mask covers the whole word selects its pattern alone. -/
theorem selects_iff_toNat {r : Row} (hmask : r.mask = BitVec.allOnes 16) (w : CommandWord) :
    r.selects w = true ↔ w.toNat = r.pattern.toNat := by
  simpa using selects_iff_div (k := 0) (p := r.pattern.toNat) (by simpa using hmask) (by simp) w

@[simp] theorem rowNop_selects (w : CommandWord) : rowNop.selects w = true ↔ w.toNat = 0 :=
  selects_iff_toNat rfl w
@[simp] theorem rowInit_selects (w : CommandWord) : rowInit.selects w = true ↔ w.toNat = 4096 :=
  selects_iff_toNat rfl w
@[simp] theorem rowAbsorb_selects (w : CommandWord) : rowAbsorb.selects w = true ↔ w.toNat / 256 = 32 :=
  selects_iff_div (k := 8) rfl rfl w
@[simp] theorem rowFinal_selects (w : CommandWord) : rowFinal.selects w = true ↔ w.toNat = 12288 :=
  selects_iff_toNat rfl w
@[simp] theorem rowRdig_selects (w : CommandWord) : rowRdig.selects w = true ↔ w.toNat / 32 = 512 :=
  selects_iff_div (k := 5) rfl rfl w
@[simp] theorem rowRstat_selects (w : CommandWord) : rowRstat.selects w = true ↔ w.toNat = 20480 :=
  selects_iff_toNat rfl w
@[simp] theorem rowRoff_selects (w : CommandWord) : rowRoff.selects w = true ↔ w.toNat = 24576 :=
  selects_iff_toNat rfl w

/-- A row selects words of its own opcode alone: every mask covers the opcode. -/
theorem opField_of_selects {r : Row} {w : CommandWord} (hr : r ∈ opcodeMap) (h : r.selects w = true) :
    opField w = opField r.pattern := by
  have hmask : ∀ r ∈ opcodeMap, opField r.mask = BitVec.allOnes 4 := by decide
  have hpattern : w &&& r.mask = r.pattern := eq_of_beq h
  have hmasked : opField (w &&& r.mask) = opField w &&& opField r.mask := BitVec.extractLsb'_and
  rw [← hpattern, hmasked, hmask r hr, BitVec.and_allOnes]

/-- Settles O4: the rows' opcodes differ. -/
theorem wordSelectsAtMostOneRow : Obligations.WordSelectsAtMostOneRow := by
  intro w r hr q hq hrw hqw
  have hdistinct : ∀ r ∈ opcodeMap, ∀ q ∈ opcodeMap, opField r.pattern = opField q.pattern → r = q := by
    decide
  exact hdistinct r hr q hq ((opField_of_selects hr hrw).symm.trans (opField_of_selects hq hqw))

/-! ### The encoder and the decoder (R60 to R62, R65) -/

theorem toNat_encode_absorb (b : Byte) : (encode (.absorb b)).toNat = 8192 + b.toNat := by
  simp [encode, toNat_wordOf]

theorem toNat_encode_rdig (k : BitVec 5) : (encode (.rdig k)).toNat = 16384 + k.toNat := by
  have hlt : k.toNat < 256 := Nat.lt_trans k.isLt (by decide)
  simp [encode, toNat_wordOf, Nat.mod_eq_of_lt hlt]

/-- Where the decoder answers a command, the word is that command's encoding: no bit of it is dropped. -/
theorem encode_of_decode {i : Instr} {w : CommandWord} (h : decode w = .ok i) : encode i = w := by
  unfold decode at h
  split_ifs at h with hnop hinit habsorb hfinal hrdig hrstat hroff <;> cases h <;> apply BitVec.eq_of_toNat_eq
  · exact ((rowNop_selects w).1 hnop).symm
  · exact ((rowInit_selects w).1 hinit).symm
  · have hop := (rowAbsorb_selects w).1 habsorb
    rw [toNat_encode_absorb, toNat_dataField]; omega
  · exact ((rowFinal_selects w).1 hfinal).symm
  · have hop := (rowRdig_selects w).1 hrdig
    rw [toNat_encode_rdig, toNat_indexField]; omega
  · exact ((rowRstat_selects w).1 hrstat).symm
  · exact ((rowRoff_selects w).1 hroff).symm

theorem dataField_encode_absorb (b : Byte) : dataField (encode (.absorb b)) = b := by
  apply BitVec.eq_of_toNat_eq
  rw [toNat_dataField, toNat_encode_absorb]; omega

theorem indexField_encode_rdig (k : BitVec 5) : indexField (encode (.rdig k)) = k := by
  apply BitVec.eq_of_toNat_eq
  rw [toNat_indexField, toNat_encode_rdig]; omega

/-- A command's word decodes to the command. -/
theorem decode_encode (i : Instr) : decode (encode i) = .ok i := by
  cases i with
  | absorb b =>
    simp only [decode, rowNop_selects, rowInit_selects, rowAbsorb_selects, toNat_encode_absorb]
    rw [if_neg (by omega), if_neg (by omega), if_pos (by omega), dataField_encode_absorb]
  | rdig k =>
    simp only [decode, rowNop_selects, rowInit_selects, rowAbsorb_selects, rowFinal_selects, rowRdig_selects,
      toNat_encode_rdig]
    rw [if_neg (by omega), if_neg (by omega), if_neg (by omega), if_neg (by omega), if_pos (by omega),
      indexField_encode_rdig]
  | _ => rfl

/-- Settles O1, by `encode_of_decode` and `decode_encode`. -/
theorem decodeIsInverseOfEncode : Obligations.DecodeIsInverseOfEncode :=
  fun i _ => ⟨encode_of_decode, fun h => h ▸ decode_encode i⟩

/-- Settles O5: each word is the encoding of its command, written out. -/
theorem sampleWordsDecodeRight : Obligations.SampleWordsDecodeRight :=
  ⟨decode_encode .nop, decode_encode .init, decode_encode (.absorb 0x61), decode_encode .final,
    decode_encode (.rdig 31), decode_encode .rstat, decode_encode .roff, rfl⟩

/-! ### The legal words (R63 to R65) -/

/-- The legality predicate of R63 in numbers. -/
theorem legal_iff_toNat (w : CommandWord) : legal w = true ↔
    (w.toNat / 4096 = 0 ∧ w.toNat % 4096 = 0) ∨ (w.toNat / 4096 = 1 ∧ w.toNat % 4096 = 0) ∨
    (w.toNat / 4096 = 2 ∧ w.toNat / 256 % 16 = 0) ∨ (w.toNat / 4096 = 3 ∧ w.toNat % 4096 = 0) ∨
    (w.toNat / 4096 = 4 ∧ w.toNat / 32 % 128 = 0) ∨ (w.toNat / 4096 = 5 ∧ w.toNat % 4096 = 0) ∨
    (w.toNat / 4096 = 6 ∧ w.toNat % 4096 = 0) := by
  have hlow := extractLsb'_eq_zero_iff w 0 12
  have hrsv := extractLsb'_eq_zero_iff w 8 4
  have hhigh := extractLsb'_eq_zero_iff w 5 7
  simp only [legal, rsvField, Bool.or_eq_true, Bool.and_eq_true, beq_iff_eq, opField_eq_iff, hlow, hrsv, hhigh,
    pow_zero, Nat.div_one, or_assoc]
  rfl

/-- A word is legal where a row of the opcode map selects it (R63). -/
theorem legal_iff_exists_row (w : CommandWord) : legal w = true ↔ ∃ r ∈ opcodeMap, r.selects w = true := by
  simp only [opcodeMap, List.mem_cons, List.not_mem_nil, or_false, exists_eq_or_imp, exists_eq_left, rowNop_selects,
    rowInit_selects, rowAbsorb_selects, rowFinal_selects, rowRdig_selects, rowRstat_selects, rowRoff_selects,
    legal_iff_toNat]
  omega

/-- How many words of the opcode `op` are legal: those whose lower 12 bits are below this number (R63). -/
def legalCount : Nat → Nat
  | 0 | 1 | 3 | 5 | 6 => 1
  | 2 => 256
  | 4 => 32
  | _ => 0

theorem legalCount_le (op : Nat) : legalCount op ≤ 4096 := by
  unfold legalCount; split <;> decide

/-- The legal words of an opcode are the first `legalCount` of its 4096. -/
theorem legal_iff_lt_legalCount (w : CommandWord) :
    legal w = true ↔ w.toNat % 4096 < legalCount (w.toNat / 4096) := by
  rw [legal_iff_toNat]
  generalize hop : w.toNat / 4096 = op
  unfold legalCount
  split
  case h_8 => simp_all -- no clause of R63 names another opcode
  all_goals omega

/-- The same of a word numbered by its opcode and its lower 12 bits. -/
theorem legal_of_block {op m : Nat} (hop : op < 16) (hm : m < 4096) :
    legal (BitVec.ofNat 16 (4096 * op + m)) = decide (m < legalCount op) := by
  have hn : (BitVec.ofNat 16 (4096 * op + m)).toNat = 4096 * op + m := Nat.mod_eq_of_lt (by omega)
  have hdiv : (4096 * op + m) / 4096 = op := by omega
  have hmod : (4096 * op + m) % 4096 = m := by omega
  rw [Bool.eq_iff_iff, legal_iff_lt_legalCount, hn, hdiv, hmod, decide_eq_true_iff]

/-- Of the first `n` numbers, `c` are below `c`. -/
theorem countP_lt_range {c n : Nat} (h : c ≤ n) : (List.range n).countP (fun m => decide (m < c)) = c := by
  obtain ⟨d, rfl⟩ := Nat.exists_eq_add_of_le h
  have hlow : (List.range c).countP (fun m => decide (m < c)) = c := by
    rw [List.countP_eq_length.2 (by simp), List.length_range]
  rw [List.range_add, List.countP_append, List.countP_map, hlow]
  simp

/-- The legal words of the first `n` opcodes, counted opcode by opcode. -/
theorem countP_legal_range {n : Nat} (h : n ≤ 16) :
    (List.range (4096 * n)).countP (fun m => legal (BitVec.ofNat 16 m)) = ((List.range n).map legalCount).sum := by
  induction n with
  | zero => rfl
  | succ n ih =>
    have hblock : (List.range 4096).countP (fun m => legal (BitVec.ofNat 16 (4096 * n + m))) = legalCount n := by
      rw [List.countP_congr fun m hm => by rw [legal_of_block h (List.mem_range.1 hm)],
        countP_lt_range (legalCount_le n)]
    rw [Nat.mul_succ, List.range_add, List.countP_append, List.countP_map, ih (by omega), List.range_succ (n := n),
      List.map_append, List.sum_append, List.map_singleton, List.sum_singleton]
    exact congrArg _ hblock

/-- R63: "Of the 65,536 words, 293 are legal". -/
theorem countP_legal : (List.range 65536).countP (fun n => legal (BitVec.ofNat 16 n)) = 293 :=
  countP_legal_range (n := 16) (by decide)

theorem countP_not {α : Type} (p : α → Bool) (l : List α) :
    l.countP (fun a => !p a) = l.length - l.countP p := by
  have htotal := List.length_eq_countP_add_countP p (l := l)
  simp only [Bool.not_eq_true, Bool.decide_eq_false] at htotal
  omega

/-- Settles O2: the counts by `countP_legal_range`, a sum over the sixteen opcodes. -/
theorem legalWordsAreThe293OfTheMap : Obligations.LegalWordsAreThe293OfTheMap :=
  ⟨legal_iff_toNat, legal_iff_exists_row, countP_legal,
    by rw [countP_not, countP_legal, List.length_range]⟩

/-- A command's word is legal (R63). -/
theorem legal_encode (i : Instr) : legal (encode i) = true := by
  cases i with
  | nop => exact Laws.EncodesLegal.nop
  | init => exact Laws.EncodesLegal.init
  | absorb b => exact Laws.EncodesLegal.absorb b
  | final => exact Laws.EncodesLegal.final
  | rdig k => exact Laws.EncodesLegal.rdig k
  | rstat => exact Laws.EncodesLegal.rstat
  | roff => exact Laws.EncodesLegal.roff

/-- A word that decodes to no command is selected by no row. -/
theorem not_selects_of_decode {w : CommandWord} {e : IllegalReason} (h : decode w = .error e) :
    ∀ r ∈ opcodeMap, ¬ r.selects w = true := by
  unfold decode at h
  split_ifs at h with hnop hinit habsorb hfinal hrdig hrstat hroff
  simp only [opcodeMap, List.forall_mem_cons]
  exact ⟨hnop, hinit, habsorb, hfinal, hrdig, hrstat, hroff, List.forall_mem_nil _⟩

/-- Settles O3: a word that decodes is an encoding, and one that does not is selected by no row. -/
theorem decoderAnswersEveryWord : Obligations.DecoderAnswersEveryWord := by
  intro w
  cases hd : decode w with
  | ok i => exact .inl ⟨encode_of_decode hd ▸ legal_encode i, i, rfl⟩
  | error e =>
    refine .inr ⟨?_, e, rfl⟩
    by_contra hlegal
    obtain ⟨r, hr, hsel⟩ := (legal_iff_exists_row w).1 (by simpa using hlegal)
    exact not_selects_of_decode hd r hr hsel

/-- Accepting an illegal word records ILLEGAL_COMMAND, if no error was recorded, and does nothing else (R64). -/
theorem acceptWord_of_not_legal {w : CommandWord} {s : State} (h : legal w = false) :
    acceptWord w s = .next { s with rspValid := false, ERR := true, ECODE := if s.ERR then s.ECODE else 4 } := by
  obtain ⟨hlegal, _⟩ | ⟨_, e, he⟩ := decoderAnswersEveryWord w
  · simp [h] at hlegal
  · rw [acceptWord_illegal he, acceptIllegal, raiseError_noResponse]
    rfl

/-- Settles O6: each kind of illegal word misses every clause of `legal_iff_toNat`. -/
theorem illegalWordOnlyRecordsItsError : Obligations.IllegalWordOnlyRecordsItsError := by
  refine ⟨?_, ?_, ?_, ?_, rfl, fun w s => acceptWord_of_not_legal⟩
  all_goals
    intros
    rw [← Bool.not_eq_true, legal_iff_toNat]
    omega

/-! ### The assembler (R67, R68) -/

/-- A line with an operand out of range assembles to nothing. -/
theorem assemble_of_illFormed {l : Line} (h : l.wellFormed = false) : l.assemble = none := by
  simp [Line.assemble, h]

theorem assemble_eq_some_iff {l : Line} {ws : List CommandWord} :
    l.assemble = some ws ↔ l.wellFormed = true ∧ l.words = ws := by
  simp [Line.assemble]

/-- A program assembles to its lines' words in order, where no line is an error. -/
theorem assembleLines_eq (ls : List Line) :
    assembleLines ls = if ls.all Line.wellFormed then some (ls.flatMap Line.words) else none := by
  induction ls with
  | nil => rfl
  | cons l ls ih =>
    rw [assembleLines, ih]
    cases hl : l.wellFormed <;> cases hls : ls.all Line.wellFormed <;> simp [Line.assemble, hl, hls]

/-- A program with an ill-formed line assembles to nothing. -/
theorem assembleLines_of_mem {ls : List Line} {l : Line} (hl : l ∈ ls) (h : l.assemble = none) :
    assembleLines ls = none := by
  have hill : ¬ l.wellFormed = true := by simpa [Line.assemble] using h
  rw [assembleLines_eq, if_neg fun hall => hill (List.all_eq_true.1 hall l hl)]

theorem assembleLines_eq_some {ls : List Line} {ws : List CommandWord} (h : assembleLines ls = some ws) :
    ls.flatMap Line.words = ws := by
  rw [assembleLines_eq] at h
  split at h
  · exact Option.some.inj h
  · cases h

theorem legal_absorbWord (b : Nat) : legal (absorbWord b) = true := legal_encode _

theorem legal_of_mem_digestWords {w : CommandWord} (h : w ∈ digestWords) : legal w = true := by
  obtain ⟨i, _, rfl⟩ := List.mem_map.1 h
  exact legal_encode _

/-- Only `.word` places a word that is no command's. -/
theorem legal_of_mem_words {l : Line} (hl : ∀ w, l ≠ .word w) {w : CommandWord} (h : w ∈ l.words) :
    legal w = true := by
  cases l with
  | word v => exact absurd rfl (hl v)
  | absorbs bs =>
    obtain ⟨b, _, rfl⟩ := List.mem_map.1 h
    exact legal_absorbWord b
  | rdigest => exact legal_of_mem_digestWords h
  | hash m =>
    simp only [Line.words, List.mem_append, List.mem_singleton, List.mem_map] at h
    obtain ((rfl | ⟨b, _, rfl⟩) | rfl) | h := h
    · exact legal_encode _
    · exact legal_absorbWord b
    · exact legal_encode _
    · exact legal_of_mem_digestWords h
  | zeros n => rw [List.eq_of_mem_replicate h]; exact legal_absorbWord 0
  | nop | init | absorb | final | rdig | rstat | roff => rw [List.mem_singleton.1 h]; exact legal_encode _

/-- A program without `.word` assembles to legal words alone. -/
theorem legal_of_assembleLines {ls : List Line} {ws : List CommandWord} (hls : ∀ l ∈ ls, ∀ w, l ≠ .word w)
    (h : assembleLines ls = some ws) : ∀ w ∈ ws, legal w = true := by
  obtain rfl := assembleLines_eq_some h
  intro w hw
  obtain ⟨l, hl, hwl⟩ := List.mem_flatMap.1 hw
  exact legal_of_mem_words (hls l hl) hwl

/-- A list with a byte out of range is ill formed. -/
theorem all_byteInRange_of_mem {bs : List Nat} {b : Nat} (hb : b ∈ bs) (h : 256 ≤ b) :
    bs.all byteInRange = false :=
  List.all_eq_false.2 ⟨b, hb, by simpa [byteInRange] using h⟩

/-- A text is assembled as the program of its lines. -/
theorem assembleText_of_parseLines {src : List (List Char)} {ls : List Line} (h : parseLines src = some ls) :
    assembleText src = assembleLines ls := by
  rw [assembleText, h, Option.bind_some]

/-- Settles O53: a line by its operands, a program by its lines, a text by its program. -/
theorem assembledWordsAreLegal : Obligations.AssembledWordsAreLegal := by
  refine ⟨fun b h => ?_, fun i h => ?_, fun bs b hb h => ?_, fun l ws hl h => ?_,
    fun ls l hl h => assembleLines_of_mem hl h, fun ls ws hls h => legal_of_assembleLines hls h,
    fun src ls l hsrc hl h => ?_, fun src ls ws hsrc hls h => ?_⟩
  · exact assemble_of_illFormed (decide_eq_false (Nat.not_lt.2 h))
  · exact assemble_of_illFormed (decide_eq_false (Nat.not_lt.2 h))
  · have hill := all_byteInRange_of_mem hb h
    exact ⟨assemble_of_illFormed hill, assemble_of_illFormed hill⟩
  · obtain ⟨_, rfl⟩ := assemble_eq_some_iff.1 h
    exact fun _ => legal_of_mem_words hl
  · rw [assembleText_of_parseLines hsrc, assembleLines_of_mem hl h]
  · exact legal_of_assembleLines hls (assembleText_of_parseLines hsrc ▸ h)

/-- A line assembles as a program that is well formed with it and has its words. -/
theorem assemble_eq_assembleLines {l : Line} {ls : List Line} (hwf : ls.all Line.wellFormed = l.wellFormed)
    (hwords : ls.flatMap Line.words = l.words) : l.assemble = assembleLines ls := by
  rw [assembleLines_eq, hwf, hwords, Line.assemble]

/-- A list of bytes is well formed as `ABSORB` lines where it is as a list. -/
theorem all_wellFormed_absorb (bs : List Nat) : (bs.map Line.absorb).all Line.wellFormed = bs.all byteInRange := by
  rw [List.all_map]; rfl

/-- `ABSORB` lines assemble to the bytes' words. -/
theorem flatMap_words_absorb (bs : List Nat) : (bs.map Line.absorb).flatMap Line.words = bs.map absorbWord := by
  rw [List.flatMap_map]
  exact List.flatMap_pure_eq_map absorbWord bs

/-- Settles O54: each pseudo-instruction has the words of its expansion, and is well formed with it. -/
theorem pseudoInstructionsExpand : Obligations.PseudoInstructionsExpand := by
  refine ⟨fun bs => ?_, ?_, fun m => ?_, fun n => ?_, rfl⟩
  · exact assemble_eq_assembleLines (all_wellFormed_absorb bs) (flatMap_words_absorb bs)
  · exact assemble_eq_assembleLines (by decide) (by decide)
  · exact assemble_eq_assembleLines (by simp [Line.wellFormed]) (by simp [Line.words])
  · rw [← List.map_replicate]
    refine assemble_eq_assembleLines ?_ ?_
    · rw [all_wellFormed_absorb]; simp [Line.wellFormed, byteInRange]
    · rw [flatMap_words_absorb, List.map_replicate, Line.words]

/-! ### The disassembler (R69) -/

/-- A printed hex digit is read as the number's next digit. -/
@[simp] theorem readDigits_hexDigit (acc : Nat) (d : BitVec 4) (cs : List Char) :
    readDigits 16 acc (hexDigit d :: cs) = readDigits 16 (acc * 16 + d.toNat) cs := by
  rw [readDigits, digitValue_hexDigit]
  exact if_pos d.isLt

/-- A printed hex digit starts a number. -/
theorem readNumberIn_hexDigit (d : BitVec 4) (cs : List Char) :
    readNumberIn 16 (hexDigit d :: cs) = some (readDigits 16 d.toNat cs) := by
  rw [readNumberIn, digitValue_hexDigit]
  simp [d.isLt]

/-- `0x` and two hex digits are read as the byte. -/
theorem readByte_hexByte (b : Byte) : readByte (hexByte b) = some (b.toNat, []) := by
  change readNumberIn 16 [hexDigit (b.extractLsb' 4 4), hexDigit (b.extractLsb' 0 4)] = _
  have hvalue : (b.extractLsb' 4 4).toNat * 16 + (b.extractLsb' 0 4).toNat = b.toNat := by
    simp only [BitVec.extractLsb'_toNat]; omega
  rw [readNumberIn_hexDigit, readDigits_hexDigit, hvalue, readDigits]

/-- `0x` and four hex digits are read as the word. -/
theorem readNumber_hexWord (w : CommandWord) : readNumber (hexWord w) = some (w.toNat, []) := by
  change readNumberIn 16 [hexDigit (w.extractLsb' 12 4), hexDigit (w.extractLsb' 8 4), hexDigit (w.extractLsb' 4 4),
    hexDigit (w.extractLsb' 0 4)] = _
  have hvalue : (((w.extractLsb' 12 4).toNat * 16 + (w.extractLsb' 8 4).toNat) * 16 + (w.extractLsb' 4 4).toNat) * 16 +
      (w.extractLsb' 0 4).toNat = w.toNat := by
    simp only [BitVec.extractLsb'_toNat, Nat.shiftRight_eq_div_pow]; omega
  rw [readNumberIn_hexDigit, readDigits_hexDigit, readDigits_hexDigit, readDigits_hexDigit, hvalue, readDigits]

/-- An index printed in decimal is read as the index. -/
theorem readNumber_decimalIndex (k : BitVec 5) : readNumber (skipBlanks (decimalIndex k)) = some (k.toNat, []) := by
  revert k; decide +kernel

/-! A line with one operand is its mnemonic, a blank and the operand's text (R67). -/

theorem parseLine_absorb (cs : List Char) : parseLine ("ABSORB ".toList ++ cs) =
    ((readByte (skipBlanks cs)).bind fun r => ended r .absorb).map some := rfl

theorem parseLine_rdig (cs : List Char) : parseLine ("RDIG ".toList ++ cs) =
    ((readNumber (skipBlanks cs)).bind fun r => ended r .rdig).map some := rfl

theorem parseLine_word (cs : List Char) : parseLine (".word ".toList ++ cs) =
    ((readNumber (skipBlanks cs)).bind fun r => ended r .word).map some := rfl

/-! The printed line of a command with an operand, and of an illegal word, is read as that line. -/

theorem parseLine_disassemble_absorb (b : Byte) :
    parseLine (disassemble (encode (.absorb b))) = some (some (.absorb b.toNat)) := by
  have hstart : skipBlanks (hexByte b) = hexByte b := rfl
  rw [disassemble, decode_encode, parseLine_absorb, hstart, readByte_hexByte]
  rfl

theorem parseLine_disassemble_rdig (k : BitVec 5) :
    parseLine (disassemble (encode (.rdig k))) = some (some (.rdig k.toNat)) := by
  rw [disassemble, decode_encode, parseLine_rdig, readNumber_decimalIndex]
  rfl

theorem parseLine_disassemble_illegal {w : CommandWord} {e : IllegalReason} (h : decode w = .error e) :
    parseLine (disassemble w) = some (some (.word w.toNat)) := by
  have hstart : skipBlanks (hexWord w) = hexWord w := rfl
  rw [disassemble, h, parseLine_word, hstart, readNumber_hexWord]
  rfl

/-- A text of one line with one word assembles to the word. -/
theorem assembleText_of_parseLine {cs : List Char} {l : Line} {w : CommandWord} (hparse : parseLine cs = some (some l))
    (hwf : l.wellFormed = true) (hwords : l.words = [w]) : assembleText [cs] = some [w] := by
  have hlines : parseLines [cs] = some [l] := by simp [parseLines, hparse]
  rw [assembleText_of_parseLines hlines, assembleLines_eq]
  simp [hwf, hwords]

/-- Settles O52: the printed line is read back, for an illegal word as `.word` of its number. -/
theorem disassemblyAssemblesBack : Obligations.DisassemblyAssemblesBack := by
  intro w
  cases hd : decode w with
  | error e =>
    exact assembleText_of_parseLine (parseLine_disassemble_illegal hd) (decide_eq_true w.isLt) (by simp [Line.words])
  | ok i =>
    obtain rfl := encode_of_decode hd
    cases i with
    | absorb b =>
      exact assembleText_of_parseLine (parseLine_disassemble_absorb b) (decide_eq_true b.isLt)
        (by simp [Line.words, absorbWord])
    | rdig k =>
      exact assembleText_of_parseLine (parseLine_disassemble_rdig k) (decide_eq_true k.isLt) (by simp [Line.words])
    | nop => exact assembleText_of_parseLine (l := .nop) rfl rfl rfl
    | init => exact assembleText_of_parseLine (l := .init) rfl rfl rfl
    | final => exact assembleText_of_parseLine (l := .final) rfl rfl rfl
    | rstat => exact assembleText_of_parseLine (l := .rstat) rfl rfl rfl
    | roff => exact assembleText_of_parseLine (l := .roff) rfl rfl rfl

end Sys2Proof

/-! PROOFS. The statements of 40_lane_primitives.md: the lane operations bit by bit (R81 to R83) and the rotation (R84). -/

namespace Sys2Proof.Machine

/-! ### Left rotation (R84) -/

/-- Up to 63 places, the formula of R84 is the library's rotation. -/
theorem rotl64_eq_rotateLeft (a : Lane) {r : Nat} (hr : r < 64) : rotl64 a r = a.rotateLeft r := by
  rw [BitVec.rotateLeft, Nat.mod_eq_of_lt hr, BitVec.rotateLeftAux, rotl64]

/-- Bit `j` of the rotation is bit `(j - r) mod 64` of the lane: below `r` it comes round from the top,
from `r` on it comes from `r` places below. -/
theorem rotl64_getLsbD (a : Lane) {r j : Nat} (hr : r < 64) (hj : j < 64) :
    (rotl64 a r).getLsbD j = a.getLsbD ((j + 64 - r) % 64) := by
  rw [rotl64_eq_rotateLeft a hr, BitVec.getLsbD_rotateLeft, Nat.mod_eq_of_lt hr]
  rcases Nat.lt_or_ge j r with hround | hshift
  · have hplace : (j + 64 - r) % 64 = 64 - r + j := by omega
    simp [hround, hplace]
  · have hplace : (j + 64 - r) % 64 = j - r := by omega
    simp [Nat.not_lt.2 hshift, hj, hplace]

/-- The shift formula in numbers. -/
theorem toNat_rotl64 (a : Lane) (r : Nat) :
    (rotl64 a r).toNat = (a.toNat * 2 ^ r) % 2 ^ 64 ||| a.toNat / 2 ^ (64 - r) := by
  rw [rotl64, BitVec.toNat_or, BitVec.toNat_shiftLeft, BitVec.toNat_ushiftRight, Nat.shiftLeft_eq,
    Nat.shiftRight_eq_div_pow]

/-- The right shift by all 64 places leaves nothing. -/
@[simp] theorem rotl64_zero (a : Lane) : rotl64 a 0 = a := by
  have hgone : a >>> 64 = 0#64 := BitVec.ushiftRight_eq_zero (Nat.le_refl 64)
  rw [rotl64, BitVec.shiftLeft_zero, Nat.sub_zero, hgone, BitVec.or_zero]

/-- Settles O34: up to 63 places the shift formula is the library's rotation, whose bits are known. -/
theorem rotationMovesEveryBit : Obligations.RotationMovesEveryBit :=
  fun a r hr => ⟨fun _ hj => rotl64_getLsbD a hr hj, toNat_rotl64 a r, rotl64_zero a⟩

/-! ### XOR, AND and NOT (R81 to R83) -/

theorem laneXor_getLsbD (a b : Lane) (j : Nat) : (laneXor a b).getLsbD j = (a.getLsbD j ^^ b.getLsbD j) :=
  BitVec.getLsbD_xor

theorem laneAnd_getLsbD (a b : Lane) (j : Nat) : (laneAnd a b).getLsbD j = (a.getLsbD j && b.getLsbD j) :=
  BitVec.getLsbD_and

/-- The complement is of each of the 64 bits and of no bit beyond them. -/
theorem laneNot_getLsbD (a : Lane) {j : Nat} (hj : j < 64) : (laneNot a).getLsbD j = !a.getLsbD j := by
  rw [laneNot, BitVec.getLsbD_not, decide_eq_true hj, Bool.true_and]

/-- The lane of R82 and R83 with every bit set. -/
theorem allOnes_lane : (0xFFFFFFFFFFFFFFFF : Lane) = BitVec.allOnes 64 := by decide

theorem laneAnd_allOnes (a : Lane) : laneAnd a 0xFFFFFFFFFFFFFFFF = a := by
  rw [allOnes_lane]; exact BitVec.and_allOnes

theorem laneNot_eq_laneXor_allOnes (a : Lane) : laneNot a = laneXor a 0xFFFFFFFFFFFFFFFF := by
  rw [allOnes_lane]; exact BitVec.xor_allOnes.symm

theorem laneNot_laneNot (a : Lane) : laneNot (laneNot a) = a := BitVec.not_not

/-- Settles O33: the operations' bits, and the corner cases as laws of words. -/
theorem laneOperationsAreBitwise : Obligations.LaneOperationsAreBitwise :=
  fun a b c => ⟨fun j hj => ⟨laneXor_getLsbD a b j, laneAnd_getLsbD a b j, laneNot_getLsbD a hj⟩,
    BitVec.xor_self, BitVec.xor_zero, BitVec.xor_comm a b, BitVec.xor_assoc a b c,
    BitVec.and_zero, laneAnd_allOnes a, laneNot_eq_laneXor_allOnes a, laneNot_laneNot a⟩

end Sys2Proof.Machine

/-! PROOFS. The statements of 41_permutation.md: the step mappings θ, ρ, π, χ and ι (R91 to R96), the rounds in order (R90, R97), the tables and their generating rules (R99 to R102), and that KeccakF is a bijection (R106). -/

namespace Sys2Proof.Machine

/-! ### XOR and rotation of lanes (R81, R84) -/

theorem rotateLeft_getLsbD (a : Lane) (r : Nat) {j : Nat} (hj : j < 64) :
    (a.rotateLeft r).getLsbD j = a.getLsbD ((j + 64 - r % 64) % 64) := by
  have hr : r % 64 < 64 := Nat.mod_lt r (by decide)
  rw [← BitVec.rotateLeft_mod_eq_rotateLeft, ← rotl64_eq_rotateLeft a hr, rotl64_getLsbD a hr hj]

theorem rotateLeft_xor (a b : Lane) (r : Nat) :
    (a ^^^ b).rotateLeft r = a.rotateLeft r ^^^ b.rotateLeft r := by
  apply BitVec.eq_of_getLsbD_eq
  intro j hj
  simp only [BitVec.getLsbD_xor, rotateLeft_getLsbD _ r hj]

theorem rotateLeft_rotateLeft (a : Lane) (r q : Nat) :
    (a.rotateLeft r).rotateLeft q = a.rotateLeft (r + q) := by
  apply BitVec.eq_of_getLsbD_eq
  intro j hj
  have hj' : (j + 64 - q % 64) % 64 < 64 := Nat.mod_lt _ (by decide)
  rw [rotateLeft_getLsbD _ q hj, rotateLeft_getLsbD a r hj', rotateLeft_getLsbD a (r + q) hj]
  congr 1
  omega

/-- Rotating through all 64 places changes nothing. -/
theorem rotateLeft_64 (a : Lane) : a.rotateLeft 64 = a := by
  rw [← BitVec.rotateLeft_mod_eq_rotateLeft, Nat.mod_self, ← rotl64_eq_rotateLeft a (by decide), rotl64_zero]

theorem rotl64_xor (a b : Lane) {r : Nat} (hr : r < 64) : rotl64 (a ^^^ b) r = rotl64 a r ^^^ rotl64 b r := by
  simp only [rotl64_eq_rotateLeft _ hr, rotateLeft_xor]

/-- Rotating by the other `64 - r` places undoes a rotation by `r`. -/
theorem rotl64_injective {r : Nat} (hr : r < 64) : Function.Injective (rotl64 · r) := by
  intro a b h
  have undo (c : Lane) : (rotl64 c r).rotateLeft (64 - r) = c := by
    rw [rotl64_eq_rotateLeft c hr, rotateLeft_rotateLeft, Nat.add_sub_cancel' hr.le, rotateLeft_64]
  rw [← undo a, ← undo b]
  exact congrArg (·.rotateLeft (64 - r)) h

/-! ### The step mapping θ (R91) -/

theorem laneAt_theta_formula (A : Lanes) (x y : Coord) :
    laneAt (theta A) x y =
      laneAt A x y ^^^
        ((laneAt A (x + 4) 0 ^^^ laneAt A (x + 4) 1 ^^^ laneAt A (x + 4) 2 ^^^ laneAt A (x + 4) 3 ^^^ laneAt A (x + 4) 4) ^^^
         rotl64 (laneAt A (x + 1) 0 ^^^ laneAt A (x + 1) 1 ^^^ laneAt A (x + 1) 2 ^^^ laneAt A (x + 1) 3 ^^^ laneAt A (x + 1) 4) 1) := by
  rw [laneAt_theta, thetaD_at, thetaC_at, thetaC_at]

/-- Even columns have no differences for θ to add. -/
theorem theta_of_even_columns {A : Lanes} (h : ∀ x : Coord, (thetaC A)[x] = 0) : theta A = A := by
  refine lanes_ext fun x y => ?_
  have hm : (thetaC A)[(x + 4).val] = 0 := h (x + 4)
  have hp : (thetaC A)[(x + 1).val] = 0 := h (x + 1)
  rw [laneAt_theta, thetaD_at, hm, hp]
  simp [rotl64]

theorem theta_zeroLanes : theta zeroLanes = zeroLanes :=
  theta_of_even_columns fun x => by simp [zeroLanes]

/-- The column parities are linear. -/
theorem thetaC_xor (A B : Lanes) (x : Coord) :
    (thetaC (ofCoords fun x y => laneAt A x y ^^^ laneAt B x y))[x.val] = (thetaC A)[x.val] ^^^ (thetaC B)[x.val] := by
  simp only [thetaC_at, laneAt_ofCoords]
  ac_rfl

theorem theta_xor (A B : Lanes) :
    theta (ofCoords fun x y => laneAt A x y ^^^ laneAt B x y) =
      ofCoords fun x y => laneAt (theta A) x y ^^^ laneAt (theta B) x y := by
  refine lanes_ext fun x y => ?_
  simp only [laneAt_ofCoords, laneAt_theta, thetaD_at, thetaC_xor, rotl64_xor _ _ (by decide : 1 < 64)]
  ac_rfl

/-- Settles O35: evenness of the zero state's columns gives θ(0) = 0, and linearity is that of rotation and XOR. -/
theorem thetaIsItsFormulaAndLinear : Obligations.ThetaIsItsFormulaAndLinear :=
  ⟨laneAt_theta_formula, theta_zeroLanes, theta_xor, fun _ => theta_of_even_columns⟩

/-! ### The step mappings ρ and π (R92 to R94) -/

/-- The gather form of π reads `(y, 2x + 3y)` from where the scatter form takes it, as `y + 3(2x + 3y) = x` modulo 5. -/
theorem gather_scatter (x y : Coord) : y + 3 * (2 * x + 3 * y) = x := by revert x y; decide

theorem piTarget_eq_iff (x y X Y : Coord) : piTarget x y = (X, Y) ↔ (x, y) = (X + 3 * Y, X) := by
  revert x y X Y; decide

theorem laneAt_pi_target (A : Lanes) (x y : Coord) : laneAt (pi A) y (2 * x + 3 * y) = laneAt A x y := by
  rw [laneAt_pi, gather_scatter]

theorem laneAt_rhoPi_target (A : Lanes) (x y : Coord) :
    laneAt (rhoPi A) y (2 * x + 3 * y) = rotl64 (laneAt A x y) (RHO x y) := by
  rw [laneAt_rhoPi, gather_scatter]

theorem rhoPi_eq_pi_rho (A : Lanes) : rhoPi A = pi (rho A) :=
  lanes_ext fun X Y => by rw [laneAt_rhoPi, laneAt_pi, laneAt_rho]

/-- Settles O36: the scatter forms follow from the gather forms, and `(X + 3Y, X)` is the one source of `(X, Y)`. -/
theorem fusedRhoPiIsPiAfterRho : Obligations.FusedRhoPiIsPiAfterRho :=
  ⟨laneAt_rhoPi_target, rhoPi_eq_pi_rho, laneAt_pi_target, fun X Y =>
    ⟨(X + 3 * Y, X), (piTarget_eq_iff _ _ X Y).2 rfl, fun _ hq => (piTarget_eq_iff _ _ X Y).1 hq⟩⟩

/-! ### The step mapping χ (R95) -/

theorem laneAt_chi_getLsbD (B : Lanes) (x y : Coord) {j : Nat} (hj : j < 64) :
    (laneAt (chi B) x y).getLsbD j =
      ((laneAt B x y).getLsbD j ^^ (!(laneAt B (x + 1) y).getLsbD j && (laneAt B (x + 2) y).getLsbD j)) := by
  rw [laneAt_chi, BitVec.getLsbD_xor, BitVec.getLsbD_and, BitVec.getLsbD_not, decide_eq_true hj, Bool.true_and]

theorem chi_zeroLanes : chi zeroLanes = zeroLanes :=
  lanes_ext fun x y => by simp [zeroLanes]

/-- The complement of a lane of ones leaves nothing to add. -/
theorem laneAt_chi_of_allOnes {B : Lanes} {y : Coord} (h : ∀ x, laneAt B x y = 0xFFFFFFFFFFFFFFFF) (x : Coord) :
    laneAt (chi B) x y = 0xFFFFFFFFFFFFFFFF := by
  rw [laneAt_chi, h, h, h]; decide

/-- The file whose column `c` holds 1 in every lane, and 0 elsewhere. -/
def columnOfOnes (c : Coord) : Lanes := ofCoords fun x _ => if x = c then 1 else 0

/-- Column 2 passes to column 0 through the zeros of column 1, and no more once column 1 holds ones. -/
theorem chi_not_linear :
    chi (ofCoords fun x y => laneAt (columnOfOnes 1) x y ^^^ laneAt (columnOfOnes 2) x y) ≠
      ofCoords fun x y => laneAt (chi (columnOfOnes 1)) x y ^^^ laneAt (chi (columnOfOnes 2)) x y := by
  intro h
  have h00 := congrArg (laneAt · 0 0) h
  simp [columnOfOnes] at h00

/-- Settles O37: the rule read bit by bit, and columns 1 and 2 of ones against linearity. -/
theorem chiCombinesEachRow : Obligations.ChiCombinesEachRow :=
  ⟨fun B x y _ hj => laneAt_chi_getLsbD B x y hj, chi_zeroLanes, fun _ _ => laneAt_chi_of_allOnes,
    columnOfOnes 1, columnOfOnes 2, chi_not_linear⟩

/-! ### The step mapping ι, the rounds and the tables (R90, R96 to R102) -/

/-- Settles O38: lane 0 is the lane at `(0, 0)` and at no other coordinate. -/
theorem iotaChangesOnlyLaneZero : Obligations.IotaChangesOnlyLaneZero := by
  intro A ir
  refine ⟨by rw [laneAt_iota, if_pos ⟨rfl, rfl⟩], fun x y hxy => ?_⟩
  rw [laneAt_iota, if_neg fun ⟨hx, hy⟩ => hxy (Prod.ext hx hy)]

theorem roundFn_eq (A : Lanes) (ir : Fin 24) : roundFn A ir = iota (chi (pi (rho (theta A)))) ir := by
  rw [roundFn, rhoPi_eq_pi_rho]

theorem keccakF_eq_foldl (A : Lanes) : keccakF A = (List.finRange 24).foldl roundFn A := by
  rw [keccakF]
  exact rounds_rest 24 (Nat.le_refl 24) A

/-- Settles O39: the fused ρ∘π split, and all 24 rounds as the rest of the list from round 0. -/
theorem keccakFIsItsRoundsInOrder : Obligations.KeccakFIsItsRoundsInOrder :=
  ⟨roundFn_eq, keccakF_eq_foldl⟩

/-- Settles O40: the rule of R100 run for each of the 24 rounds. -/
theorem roundConstantsAreGenerated : Obligations.RoundConstantsAreGenerated := by
  unfold Obligations.RoundConstantsAreGenerated
  decide +kernel

/-- Settles O41: the walk of R102 run for its 24 steps. -/
theorem rotationOffsetsAreGenerated : Obligations.RotationOffsetsAreGenerated := by
  unfold Obligations.RotationOffsetsAreGenerated
  decide

/-! ### KeccakF is a bijection (R106)

Every step mapping of a round is injective, so KeccakF is; and there are finitely many files of lanes.

The case that is not read off a rule is θ. On the column parities it acts as `columnMix 1 1`: the sum of a shift by 0, a
shift by 1, and a shift by -1 with a rotation by 1. Sums of lanes have characteristic 2, so squaring the map doubles its
shifts and its rotation: after 6 squarings the rotation is by all 64 places and gone, and the shifts alone have order 3. -/

/-- With associativity, this lets `simp` sort the terms of a sum of lanes, so that equal ones meet and cancel. -/
theorem lane_xor_left_comm (a b c : Lane) : a ^^^ (b ^^^ c) = b ^^^ (a ^^^ c) := by
  rw [← BitVec.xor_assoc, BitVec.xor_comm a b, BitVec.xor_assoc]

/-- Five lanes by their column, each with the one `s` columns before it and the one `s` columns after it, rotated by `r`, added. -/
def columnMix (s : Coord) (r : Nat) (P : Coord → Lane) : Coord → Lane := fun x =>
  P x ^^^ (P (x - s) ^^^ (P (x + s)).rotateLeft r)

/-- The terms that the two passes have in common cancel. -/
theorem columnMix_columnMix (s : Coord) (r : Nat) (P : Coord → Lane) :
    columnMix s r (columnMix s r P) = columnMix (s + s) (r + r) P := by
  funext x
  simp only [columnMix, rotateLeft_xor, rotateLeft_rotateLeft, sub_add_cancel, add_sub_cancel_right, sub_sub, add_assoc]
  simp only [BitVec.xor_assoc, lane_xor_left_comm, xor_cancel_left]

theorem columnMix_iterate_two_pow (s : Coord) (r n : Nat) :
    (columnMix s r)^[2 ^ n] = columnMix (2 ^ n • s) (2 ^ n * r) := by
  induction n with
  | zero => simp
  | succ n ih =>
    funext P
    rw [pow_succ, Function.iterate_mul, ih]
    show columnMix _ _ (columnMix _ _ P) = _
    rw [columnMix_columnMix, ← two_nsmul, ← two_mul, mul_nsmul, mul_comm _ 2, mul_assoc]

/-- With the rotation by all 64 places gone, three passes leave each lane as it was. -/
theorem columnMix_iterate_three : (columnMix 4 64)^[3] = id := by
  funext P x
  show columnMix 4 64 (columnMix 4 64 (columnMix 4 64 P)) x = P x
  have sub_four (z : Coord) : z - 4 = z + 1 := sub_eq_add_neg z 4
  simp only [columnMix, rotateLeft_64, sub_four, add_assoc, Fin.reduceAdd, add_zero]
  simp only [BitVec.xor_assoc, lane_xor_left_comm, xor_cancel_left, BitVec.xor_self, BitVec.xor_zero]

theorem columnMix_iterate_192 : (columnMix 1 1)^[192] = id := by
  have h64 : (columnMix 1 1)^[64] = columnMix 4 64 := columnMix_iterate_two_pow 1 1 6
  rw [show 192 = 64 * 3 from rfl, Function.iterate_mul, h64, columnMix_iterate_three]

theorem columnMix_injective : Function.Injective (columnMix 1 1) :=
  Function.LeftInverse.injective (g := (columnMix 1 1)^[191]) fun P => congrFun columnMix_iterate_192 P

/-- θ's column parities `C[x]` as a function of the column. -/
def columnParity (A : Lanes) (x : Coord) : Lane := (thetaC A)[x.val]

/-- θ adds `D[x]` to the five lanes of column `x`, so once to the column's parity. -/
theorem columnParity_theta (A : Lanes) : columnParity (theta A) = columnMix 1 1 (columnParity A) := by
  funext x
  have hx : x - 1 = x + 4 := sub_eq_add_neg x 1
  simp only [columnParity, columnMix, thetaC_at (theta A), laneAt_theta, hx,
    ← rotl64_eq_rotateLeft _ (by decide : 1 < 64)]
  rw [← thetaD_at]
  generalize (thetaD (thetaC A))[x.val] = d
  simp only [thetaC_at, BitVec.xor_assoc, BitVec.xor_comm, lane_xor_left_comm, xor_cancel_left]

/-- The parities are recovered first, and with them what θ added to each lane. -/
theorem theta_injective : Function.Injective theta := by
  intro A B h
  have hparity : columnParity A = columnParity B :=
    columnMix_injective (by rw [← columnParity_theta, ← columnParity_theta, h])
  have hC : thetaC A = thetaC B := Vector.ext fun x hx => congrFun hparity ⟨x, hx⟩
  refine lanes_ext fun x y => ?_
  have hxy := congrArg (laneAt · x y) h
  simpa only [laneAt_theta, hC, BitVec.xor_left_inj] using hxy

theorem RHO_lt (x y : Coord) : RHO x y < 64 := by revert x y; decide

/-- The lane at `(x, y)` is recovered from its target `(y, 2x + 3y)`. -/
theorem rhoPi_injective : Function.Injective rhoPi := by
  intro A B h
  refine lanes_ext fun x y => rotl64_injective (RHO_lt x y) ?_
  show rotl64 (laneAt A x y) (RHO x y) = rotl64 (laneAt B x y) (RHO x y)
  rw [← laneAt_rhoPi_target, ← laneAt_rhoPi_target, h]

/-- The inverse of χ: a lane of a row from the five lanes of χ's row. -/
def chiInverse (A : Lanes) : Lanes := ofCoords fun x y =>
  laneAt A x y ^^^ (~~~laneAt A (x + 1) y &&& (laneAt A (x + 2) y ^^^ (~~~laneAt A (x + 3) y &&& laneAt A (x + 4) y)))

/-- At each bit position this is an identity of the five bits of a row. -/
theorem chiInverse_chi (A : Lanes) : chiInverse (chi A) = A := by
  refine lanes_ext fun x y => BitVec.eq_of_getLsbD_eq fun j hj => ?_
  simp only [chiInverse, laneAt_ofCoords, laneAt_chi, add_assoc, Fin.reduceAdd, add_zero, BitVec.getLsbD_xor,
    BitVec.getLsbD_and, BitVec.getLsbD_not, hj, decide_true, Bool.true_and]
  generalize (laneAt A x y).getLsbD j = a, (laneAt A (x + 1) y).getLsbD j = b, (laneAt A (x + 2) y).getLsbD j = c,
    (laneAt A (x + 3) y).getLsbD j = d, (laneAt A (x + 4) y).getLsbD j = e
  revert a b c d e
  decide

theorem chi_injective : Function.Injective chi := Function.LeftInverse.injective chiInverse_chi

theorem iota_involutive (ir : Fin 24) : Function.Involutive (iota · ir) := by
  intro A
  refine lanes_ext fun x y => ?_
  by_cases h : x = 0 ∧ y = 0
  · obtain ⟨rfl, rfl⟩ := h
    simp [laneAt_iota]
  · simp only [laneAt_iota, if_neg h]

theorem roundFn_injective (ir : Fin 24) : Function.Injective (roundFn · ir) := by
  have h := (iota_involutive ir).injective.comp (chi_injective.comp (rhoPi_injective.comp theta_injective))
  intro A B hAB
  simp only [roundFn] at hAB
  exact h hAB

theorem rounds_injective (n ir : Nat) : Function.Injective (rounds n ir) := by
  induction n generalizing ir with
  | zero => exact Function.injective_id
  | succ n ih => exact (ih (ir + 1)).comp (roundFn_injective (Fin.ofNat 24 ir))

theorem keccakF_injective : Function.Injective keccakF := by
  intro A B h
  simp only [keccakF] at h
  exact rounds_injective _ 0 h

/-- A file is determined by its lanes, and there are finitely many of each. -/
theorem finite_lanes : Finite Lanes :=
  Finite.of_injective laneAt fun _ _ h => lanes_ext fun x y => congrFun (congrFun h x) y

/-- Settles O42: KeccakF is injective on the finitely many states of 25 lanes. -/
theorem keccakFIsABijection : Obligations.KeccakFIsABijection :=
  have := finite_lanes
  Finite.injective_iff_bijective.1 keccakF_injective

end Sys2Proof.Machine

/-! PROOFS. The statements of 42_sponge_commands.md: the seven commands one by one (R120 to R129), a run of ABSORBs as the sponge absorption of its string (R130), and `HASH m` as SHA3-256 (R131). -/

namespace Sys2Proof.Machine

variable {s t : State}

/-! ### The step runs the command (R120) -/

/-- Settles O7, by `step_command`: a table word is one word placed before the host's other moves. -/
theorem stepRunsTheDecodedCommand : Obligations.StepRunsTheDecodedCommand := by
  refine ⟨fun s w rest i hinbox hd => ?_, fun s w rest e hinbox hd => ?_, fun s nbits w i hd hb => ?_⟩
  · have hstep : step s = exec i (finishPermutation { s with inbox := rest }) := by
      simp only [step, hinbox, hostMove, acceptWord_legal hd]
    exact ⟨hstep, fun hb => by rw [step_command hb hinbox, acceptWord_legal hd]⟩
  · have hstep : step s = .next (acceptIllegal (finishPermutation { s with inbox := rest })) := by
      simp only [step, hinbox, hostMove, acceptWord_illegal hd]
    exact ⟨hstep, fun hb => by rw [step_command hb hinbox, acceptWord_illegal hd]⟩
  · have hi : decode (tableWord nbits w) = .ok i := by
      unfold decodeTableWord at hd
      split at hd
      · next j hj => rw [hj, Option.some.inj hd]
      · cases hd
    exact (step_command (s := s.withFetchWord nbits w) hb rfl).trans (acceptWord_legal hi)

/-! ### NOP and INIT (R121, R122) -/

/-- Settles O13: 0x0000 is the only legal word with op 0x0. -/
theorem nopChangesNothing : Obligations.NopChangesNothing := by
  refine ⟨fun _ => rfl, rfl, fun w s hop hne => acceptWord_of_not_legal ?_⟩
  rw [← Bool.not_eq_true, legal_iff_toNat]
  have hpos : w.toNat ≠ 0 := fun h => hne (BitVec.eq_of_toNat_eq h)
  omega

/-- A recorded error is kept by every command but INIT (R156). -/
theorem exec_keeps_ERR {i : Instr} (hi : i ≠ .init) (herr : s.ERR = true) (e : exec i s = .next t) :
    t.ERR = true := by
  cases i with
  | init => exact absurd rfl hi
  | nop | rstat | roff => cases e; exact herr
  | absorb b => obtain ⟨_, rfl⟩ | ⟨_, A, _, ⟨_, rfl⟩ | ⟨_, rfl⟩⟩ := absorbWith_cases e <;> simp [herr]
  | final => obtain ⟨_, rfl⟩ | ⟨_, A, _, rfl⟩ := finalWith_cases e <;> simp [herr]
  | rdig k => obtain ⟨_, rfl⟩ | ⟨_, rfl⟩ := execRdig_cases e <;> simp [herr]

/-- RSTAT in a new context responds with 0x00 (R28, R122). -/
theorem execRstat_newContext (s : State) :
    execRstat (noResponse (newContext s)) = .next (respond 0x00 (noResponse (newContext s))) := by
  have hstatus : statusByte (noResponse (newContext s)) = 0x00 := by simp [statusByte]
  rw [execRstat, hstatus]

/-- Settles O14, by `execRstat_newContext` and `exec_keeps_ERR`. -/
theorem initStartsANewContext : Obligations.InitStartsANewContext :=
  ⟨rfl, fun s => ⟨_, rfl, rfl, rfl, execRstat_newContext s⟩, fun _ _ _ => exec_keeps_ERR⟩

/-! ### ABSORB (R123, R124) -/

/-- Settles O15, by `absorbByte_spec`. -/
theorem absorbXorsOneByteAndAdvances : Obligations.AbsorbXorsOneByteAndAdvances := by
  intro s b hf ho
  obtain ⟨A, hA, hread⟩ := absorbByte_spec (s := s) b (by omega)
  have hne : s.offset ≠ 135 := by rintro h; simp [h] at ho
  exact ⟨A, absorbWith_partial permute hf hA hne, by bv_omega, hread⟩

/-- Settles O16, by `absorbByte_spec` at position 135. -/
theorem absorbOfTheLastByteRunsKeccakF : Obligations.AbsorbOfTheLastByteRunsKeccakF := by
  intro s b hf ho
  have hpos : s.offset.toNat = 135 := by rw [ho]; rfl
  obtain ⟨A, hA, hread⟩ := absorbByte_spec (s := s) b (by omega)
  rw [hpos] at hread
  exact ⟨A, _, hread, absorbWith_full permute hf hA ho, rfl⟩

/-- Settles O17, by `raiseError_noResponse`. -/
theorem absorbAfterFinalOnlyRecordsItsError : Obligations.AbsorbAfterFinalOnlyRecordsItsError :=
  fun _ b hf => (absorbWith_finalized permute b hf).trans (congrArg Host.Outcome.next (raiseError_noResponse _ _))

/-! ### FINAL (R125, R126) -/

/-- The padding of `padBlock_spec` as the two XORs of R125, each at its own position. -/
theorem padBlock_xors (h : s.offset.toNat < 200) :
    ∃ P, padBlock s = some P ∧
      ∀ k, memRead P k = (memRead s.S k).map fun v =>
        v ^^^ (if k = absorbPosition s then 0x06 else 0) ^^^ (if k = 135 then 0x80 else 0) := by
  obtain ⟨P, hP, hread⟩ := padBlock_spec h
  refine ⟨P, hP, fun k => ?_⟩
  rw [hread, absorbPosition]
  by_cases htrailer : k = 135
  · subst htrailer
    by_cases hdomain : s.offset.toNat = 135
    · simp [hdomain, BitVec.xor_assoc]
    · simp [hdomain, Ne.symm hdomain]
  · simp only [if_neg htrailer]
    by_cases hdomain : k = s.offset.toNat
    · simp only [if_pos hdomain]
      congr 1
      funext v
      exact BitVec.xor_zero.symm
    · simp [hdomain]

/-- Settles O18, by `padBlock_xors`. -/
theorem finalPadsPermutesAndFinalizes : Obligations.FinalPadsPermutesAndFinalizes := by
  refine ⟨rfl, fun s hf ho => ?_, fun s hf =>
    (finalWith_finalized permute hf).trans (congrArg Host.Outcome.next (raiseError_noResponse _ _))⟩
  obtain ⟨P, hP, hread⟩ := padBlock_xors (s := s) (Nat.lt_trans ho (by decide))
  exact ⟨P, _, hread, finalWith_open permute hf hP, rfl⟩

/-- R180's cycles of a command's word. -/
theorem commandCycles_encode (i : Instr) (s : State) :
    commandCycles (encode i) s = if triggersPermutation i s then 25 else 1 := by
  simp [commandCycles, decode_encode, Config.permCycles]

/-- FINAL of an open context takes 25 cycles, whatever `offset` is (R126, R180). -/
theorem commandCycles_final (hf : s.FIN = false) : commandCycles (encode .final) s = 25 := by
  simp [commandCycles_encode, triggersPermutation, hf]

/-- Settles O19, by the two cases of `padBlock_spec`. -/
theorem paddingXorsAreNotSpecialCased : Obligations.PaddingXorsAreNotSpecialCased := by
  refine ⟨fun s hf ho => ?_, fun s hf ho => ?_, by decide, by decide⟩
  · have hpos : s.offset.toNat = 135 := by rw [ho]; rfl
    obtain ⟨P, hP, hread⟩ := padBlock_spec (s := s) (by omega)
    refine ⟨P, hP, commandCycles_final hf, fun k => ?_⟩
    rw [hread, if_pos hpos, hpos]
    split <;> rfl
  · obtain ⟨P, hP, hread⟩ := padBlock_spec (s := s) (by omega)
    refine ⟨P, hP, commandCycles_final hf, fun k => ?_⟩
    rw [hread, if_neg (show ¬ s.offset.toNat = 135 by omega), absorbPosition]
    by_cases htrailer : k = 135
    · rw [if_pos htrailer, if_neg (by omega), if_pos htrailer]
    · simp only [if_neg htrailer]

/-! ### The commands that respond (R127 to R129) -/

/-- Settles O20: the byte is `memRead_digest`'s, and an index of 32 or more makes no legal word. -/
theorem rdigSqueezesOneDigestByte : Obligations.RdigSqueezesOneDigestByte := by
  refine ⟨by decide, fun s i hf => ⟨_, memRead_digest i s, execRdig_finalized i hf⟩, fun s i hf => ?_,
    fun s w hop hindex => acceptWord_of_not_legal ?_⟩
  · refine (execRdig_open i hf).trans ?_
    cases herr : s.ERR with
    | true => rw [raiseError_of_error _ herr]; simp [respond, herr]
    | false => rw [raiseError_of_clean _ herr]; simp [respond, ErrorName.code]
  · rw [← Bool.not_eq_true, legal_iff_toNat]
    omega

/-- Settles O21: the fields of the status byte by their bits (R28). -/
theorem rstatReadsTheStatusByte : Obligations.RstatReadsTheStatusByte := by
  refine ⟨rfl, fun s => ⟨statusByte s, rfl, ?_⟩⟩
  unfold statusByte
  generalize s.ECODE = code
  cases s.FIN <;> cases s.ERR <;> revert code <;> decide

/-- Settles O22, by ROFF's own response. -/
theorem roffReadsTheOffset : Obligations.RoffReadsTheOffset :=
  ⟨rfl, fun _ => rfl, fun _ h => ⟨_, _, rfl, rfl, Nat.le_of_lt_succ h.1⟩⟩

/-! ### XORing bytes into the state (R14, R130) -/

/-- Replacing a byte by its XOR with `b` is XORing `b` into its eight bits (R14, R22). -/
theorem setLaneByte_xor (v : Lane) (j : Nat) (b : Byte) :
    setLaneByte v j (laneByte v j ^^^ b) = v ^^^ b.zeroExtend 64 <<< (8 * j) := by
  apply BitVec.eq_of_getLsbD_eq
  intro i hi
  rw [setLaneByte_getLsbD _ _ _ _ hi]
  by_cases hbyte : 8 * j ≤ i ∧ i < 8 * j + 8
  · obtain ⟨hlow, hhigh⟩ := hbyte
    have hplace : 8 * j + (i - 8 * j) = i := by omega
    rw [if_pos ⟨hlow, hhigh⟩, BitVec.getLsbD_xor, laneByte_getLsbD _ _ _ (by omega), hplace]
    simp [hi, Nat.not_lt.2 hlow]
  · rw [if_neg hbyte]
    by_cases hlow : i < 8 * j
    · simp [hlow]
    · simp [BitVec.getLsbD_of_ge b (i - 8 * j) (by omega)]

/-- The engine's XOR of a byte is the reference's. -/
theorem memXor_eq (A : Lanes) {k : Nat} (hk : k < 200) (b : Byte) : memXor A k b = some (xorByteAt A k b) := by
  rw [memXor, memRead_of_lt A hk, Option.bind_some, memWrite, dif_pos hk, setLaneByte_xor, xorByteAt, dif_pos hk]

@[simp] theorem xorByteAt_zero (A : Lanes) (k : Nat) : xorByteAt A k 0 = A := by
  unfold xorByteAt
  split
  · simp
  · rfl

/-- Two XORs into one byte are one. -/
theorem xorByteAt_xorByteAt (A : Lanes) (k : Nat) (a b : Byte) :
    xorByteAt (xorByteAt A k a) k b = xorByteAt A k (a ^^^ b) := by
  unfold xorByteAt
  split
  · simp [BitVec.xor_assoc, BitVec.setWidth_xor, BitVec.shiftLeft_xor_distrib]
  · rfl

@[simp] theorem xorBytes_nil (A : Lanes) (k : Nat) : xorBytes A k [] = A := rfl

@[simp] theorem xorBytes_cons (A : Lanes) (k : Nat) (b : Byte) (l : List Byte) :
    xorBytes A k (b :: l) = xorBytes (xorByteAt A k b) (k + 1) l := rfl

theorem xorBytes_append (A : Lanes) (k : Nat) (l r : List Byte) :
    xorBytes A k (l ++ r) = xorBytes (xorBytes A k l) (k + l.length) r := by
  induction l generalizing A k with
  | nil => rfl
  | cons b l ih =>
    rw [List.cons_append, xorBytes_cons, ih, xorBytes_cons, List.length_cons, Nat.add_right_comm, Nat.add_assoc]

@[simp] theorem xorBytes_zeros (A : Lanes) (k n : Nat) : xorBytes A k (List.replicate n 0) = A := by
  induction n generalizing k with
  | zero => rfl
  | succ n ih => rw [List.replicate_succ, xorBytes_cons, xorByteAt_zero, ih]

/-! ### The sponge absorption of a string (R130) -/

/-- The state R130 gives for the string `m` absorbed from `A`: its whole blocks absorbed and the rest XORed in. -/
def spongeAbsorb (A : Lanes) (m : List Byte) : Lanes :=
  xorBytes (absorbBlocks A m (m.length / 136)) 0 (m.drop (136 * (m.length / 136)))

@[simp] theorem absorbBlocks_zero (A : Lanes) (m : List Byte) : absorbBlocks A m 0 = A := rfl

theorem absorbBlocks_succ (A : Lanes) (m : List Byte) (n : Nat) :
    absorbBlocks A m (n + 1) = keccakF (xorBytes (absorbBlocks A m n) 0 (block m n)) := by
  simp [absorbBlocks, List.range_succ]

/-- A block that lies whole in `m` is the same in any longer string. -/
theorem block_append {m : List Byte} (l : List Byte) {j : Nat} (h : 136 * (j + 1) ≤ m.length) :
    block (m ++ l) j = block m j := by
  rw [block, List.drop_append_of_le_length (by omega), List.take_append_of_le_length (by rw [List.length_drop]; omega),
    block]

/-- Blocks that lie whole in `m` are absorbed alike from any longer string. -/
theorem absorbBlocks_append (A : Lanes) {m : List Byte} (l : List Byte) {n : Nat} (h : 136 * n ≤ m.length) :
    absorbBlocks A (m ++ l) n = absorbBlocks A m n := by
  induction n with
  | zero => rw [absorbBlocks_zero, absorbBlocks_zero]
  | succ n ih => rw [absorbBlocks_succ, absorbBlocks_succ, ih (by omega), block_append l h]

/-- The bytes of `m` after its whole blocks. -/
theorem length_drop_blocks (m : List Byte) : (m.drop (136 * (m.length / 136))).length = m.length % 136 := by
  rw [List.length_drop]; omega

/-- XORing on after the rest of `m` is XORing in the longer rest. -/
theorem xorBytes_spongeAbsorb (A : Lanes) (m l : List Byte) :
    xorBytes (spongeAbsorb A m) (m.length % 136) l =
      xorBytes (absorbBlocks A (m ++ l) (m.length / 136)) 0 ((m ++ l).drop (136 * (m.length / 136))) := by
  rw [absorbBlocks_append A l (by omega), List.drop_append_of_le_length (by omega), xorBytes_append, Nat.zero_add,
    length_drop_blocks, spongeAbsorb]

/-- Bytes that leave the block not full are XORed in (R123). -/
theorem spongeAbsorb_append_of_lt (A : Lanes) {m l : List Byte} (h : m.length % 136 + l.length < 136) :
    spongeAbsorb A (m ++ l) = xorBytes (spongeAbsorb A m) (m.length % 136) l := by
  have hblocks : (m ++ l).length / 136 = m.length / 136 := by rw [List.length_append]; omega
  rw [xorBytes_spongeAbsorb, spongeAbsorb, hblocks]

/-- Bytes that fill the block are XORed in and the block is permuted (R124). -/
theorem spongeAbsorb_append_of_eq (A : Lanes) {m l : List Byte} (h : m.length % 136 + l.length = 136) :
    spongeAbsorb A (m ++ l) = keccakF (xorBytes (spongeAbsorb A m) (m.length % 136) l) := by
  have hlen : (m ++ l).length = 136 * (m.length / 136 + 1) := by rw [List.length_append]; omega
  have hblock : block (m ++ l) (m.length / 136) = (m ++ l).drop (136 * (m.length / 136)) := by
    rw [block, List.take_of_length_le (by rw [List.length_drop]; omega)]
  rw [xorBytes_spongeAbsorb, spongeAbsorb, hlen, Nat.mul_div_cancel_left _ (by decide), List.drop_of_length_le hlen.le,
    xorBytes_nil, absorbBlocks_succ, hblock]

/-- A string of whole blocks is absorbed block by block. -/
theorem spongeAbsorb_of_whole_blocks (A : Lanes) {m : List Byte} (h : m.length % 136 = 0) :
    spongeAbsorb A m = absorbBlocks A m (m.length / 136) := by
  rw [spongeAbsorb, List.drop_of_length_le (by omega), xorBytes_nil]

/-! ### A session that absorbs (R130) -/

/-- `s` is an open context into which the string `m` has been absorbed from the state `A`. -/
structure HasAbsorbed (A : Lanes) (m : List Byte) (s : State) : Prop where
  open_context : s.FIN = false
  offset_eq : s.offset.toNat = m.length % 136
  state_eq : s.S = spongeAbsorb A m

variable {A : Lanes} {m : List Byte}

/-- Before the first byte nothing has been absorbed. -/
theorem hasAbsorbed_nil (hf : s.FIN = false) (ho : s.offset = 0) : HasAbsorbed s.S [] s where
  open_context := hf
  offset_eq := by rw [ho]; rfl
  state_eq := by simp [spongeAbsorb]

theorem HasAbsorbed.offset_lt (h : HasAbsorbed A m s) : s.offset.toNat < 200 := by
  rw [h.offset_eq]; omega

/-- The absorption goes on in any state with the same context. -/
theorem HasAbsorbed.of_frame (h : HasAbsorbed A m s) (hS : t.S = s.S) (ho : t.offset = s.offset)
    (hf : t.FIN = s.FIN) : HasAbsorbed A m t :=
  ⟨hf.trans h.open_context, (congrArg BitVec.toNat ho).trans h.offset_eq, hS.trans h.state_eq⟩

/-- ABSORB permutes exactly where its byte fills the block (R124). -/
theorem HasAbsorbed.triggers_absorb (h : HasAbsorbed A m s) (b : Byte) :
    triggersPermutation (.absorb b) s = decide (m.length % 136 = 135) := by
  have hiff : s.offset = 135 ↔ m.length % 136 = 135 := by rw [← h.offset_eq, ← BitVec.toNat_inj]; rfl
  simp [triggersPermutation, h.open_context, ← hiff, beq_eq_decide]

/-- ABSORB absorbs one more byte (R123, R124). -/
theorem HasAbsorbed.absorb (h : HasAbsorbed A m s) (b : Byte) :
    ∃ t, exec (.absorb b) s = .next t ∧ HasAbsorbed A (m ++ [b]) t := by
  have hA : absorbByte b s = some (xorBytes (spongeAbsorb A m) (m.length % 136) [b]) := by
    rw [absorbByte, absorbPosition, memXor_eq _ h.offset_lt, h.offset_eq, h.state_eq, xorBytes_cons, xorBytes_nil]
  have hlen : (m ++ [b]).length = m.length + 1 := List.length_append
  by_cases hfull : m.length % 136 = 135
  · have ho : s.offset = 135 := BitVec.eq_of_toNat_eq (h.offset_eq.trans hfull)
    refine ⟨_, absorbWith_full permute h.open_context hA ho, h.open_context, ?_, ?_⟩
    · change 0 = (m ++ [b]).length % 136
      omega
    · exact (spongeAbsorb_append_of_eq A (by rw [hfull]; rfl)).symm
  · have ho : s.offset ≠ 135 := fun he => hfull (h.offset_eq.symm.trans (congrArg BitVec.toNat he))
    have hnext : (s.offset + 1).toNat = s.offset.toNat + 1 := by
      have hlt := h.offset_lt
      bv_omega
    refine ⟨_, absorbWith_partial permute h.open_context hA ho, h.open_context, ?_, ?_⟩
    · change (s.offset + 1).toNat = (m ++ [b]).length % 136
      rw [hnext, h.offset_eq, hlen]
      omega
    · exact (spongeAbsorb_append_of_lt A (by rw [List.length_singleton]; omega)).symm

/-- A word other than ABSORB's, INIT's and FINAL's brings no byte, takes one cycle and leaves the context as it is. -/
theorem acceptWord_other {w : CommandWord} (hinit : w ≠ 0x1000) (hfinal : w ≠ 0x3000)
    (habsorb : ∀ b, decode w ≠ .ok (.absorb b)) (e : acceptWord w s = .next t) :
    absorbedBytes [w] = [] ∧ commandCycles w s = 1 ∧ t.S = s.S ∧ t.offset = s.offset ∧ t.FIN = s.FIN := by
  cases hd : decode w with
  | error r =>
    cases (acceptWord_illegal hd).symm.trans e
    simp [absorbedBytes, commandCycles, hd, acceptIllegal]
  | ok i =>
    rw [acceptWord_legal hd] at e
    cases i with
    | init => exact absurd (eq_of_decode_init hd) hinit
    | final => exact absurd (eq_of_decode_final hd) hfinal
    | absorb b => exact absurd hd (habsorb b)
    | nop | rstat | roff => cases e; simp [absorbedBytes, commandCycles, triggersPermutation, hd]
    | rdig k =>
      obtain ⟨_, rfl⟩ | ⟨_, rfl⟩ := execRdig_cases e <;>
        simp [absorbedBytes, commandCycles, triggersPermutation, hd]

/-- One word of a session that absorbs: its byte, if it is an ABSORB's, is absorbed, and it takes 24 cycles more where a block is filled (R130, R180). -/
theorem HasAbsorbed.word (h : HasAbsorbed A m s) {w : CommandWord} (hinit : w ≠ 0x1000) (hfinal : w ≠ 0x3000) :
    ∃ t, acceptWord w s = .next t ∧ HasAbsorbed A (m ++ absorbedBytes [w]) t ∧
      commandCycles w s + 24 * (m.length / 136) = 1 + 24 * ((m ++ absorbedBytes [w]).length / 136) := by
  by_cases habsorb : ∃ b, decode w = .ok (.absorb b)
  · obtain ⟨b, hd⟩ := habsorb
    obtain ⟨t, ht, habs⟩ := h.absorb b
    have hbyte : absorbedBytes [w] = [b] := by simp [absorbedBytes, hd]
    have hcycles : commandCycles w s = if m.length % 136 = 135 then 25 else 1 := by
      simp [commandCycles, hd, h.triggers_absorb b, Config.permCycles]
    rw [hbyte, hcycles, List.length_append, List.length_singleton]
    exact ⟨t, (acceptWord_legal hd).trans ht, habs, by split <;> omega⟩
  · obtain ⟨t, ht⟩ := acceptWord_next w h.offset_lt
    obtain ⟨hbyte, hcycles, hS, ho, hf⟩ := acceptWord_other hinit hfinal (not_exists.1 habsorb) ht
    rw [hbyte, hcycles, List.append_nil]
    exact ⟨t, ht, h.of_frame hS ho hf, rfl⟩

/-- A session without INIT and FINAL absorbs the bytes of its ABSORBs (R130). -/
theorem HasAbsorbed.words {ws : List CommandWord} (hws : ∀ w ∈ ws, w ≠ 0x1000 ∧ w ≠ 0x3000)
    (h : HasAbsorbed A m s) :
    ∃ u, runWords ws s = .next u ∧ HasAbsorbed A (m ++ absorbedBytes ws) u.state ∧
      u.cycles + 24 * (m.length / 136) = ws.length + 24 * ((m ++ absorbedBytes ws).length / 136) := by
  induction ws generalizing m s with
  | nil => exact ⟨_, rfl, by simpa [absorbedBytes] using h, by simp [absorbedBytes]⟩
  | cons w ws ih =>
    obtain ⟨⟨hinit, hfinal⟩, hrest⟩ := List.forall_mem_cons.1 hws
    obtain ⟨t, ht, habs, hcycles⟩ := h.word hinit hfinal
    obtain ⟨u, hu, habs', hcycles'⟩ := ih hrest habs
    have hbytes : m ++ absorbedBytes (w :: ws) = m ++ absorbedBytes [w] ++ absorbedBytes ws := by
      rw [List.append_assoc, absorbedBytes, absorbedBytes, absorbedBytes, ← List.filterMap_append,
        List.singleton_append]
    rw [hbytes]
    refine ⟨_, runWords_cons ht hu, habs', ?_⟩
    rw [List.length_cons]
    dsimp only
    omega

/-! ### ABSORBs alone (R130) -/

/-- Different commands have different words (R62). -/
theorem encode_injective : Function.Injective encode := fun i j h =>
  Except.ok.inj ((decode_encode i).symm.trans ((congrArg decode h).trans (decode_encode j)))

/-- ABSORB's word is neither INIT's nor FINAL's. -/
theorem encode_absorb_ne (b : Byte) : encode (.absorb b) ≠ 0x1000 ∧ encode (.absorb b) ≠ 0x3000 :=
  ⟨encode_injective.ne (a₂ := .init) nofun, encode_injective.ne (a₂ := .final) nofun⟩

@[simp] theorem absorbedBytes_absorbs (m : List Byte) : absorbedBytes (m.map fun b => encode (.absorb b)) = m := by
  simp [absorbedBytes, List.filterMap_map, decode_encode]

/-- ABSORB into an open context gives no response and leaves the error record and `rsp_byte` as they are. -/
theorem execAbsorb_open_frame {b : Byte} (hf : s.FIN = false) (e : exec (.absorb b) s = .next t) :
    t.FIN = false ∧ t.response = none ∧ t.ERR = s.ERR ∧ t.ECODE = s.ECODE ∧ t.rspByte = s.rspByte := by
  obtain ⟨hf', _⟩ | ⟨_, A, _, ⟨_, rfl⟩ | ⟨_, rfl⟩⟩ := absorbWith_cases e
  · simp [hf] at hf'
  · simp [State.response, hf]
  · simp [State.response, hf]

/-- ABSORBs into an open context give no response and no error. -/
theorem runWords_absorbs_frame {m : List Byte} {u : Session} (hf : s.FIN = false)
    (e : runWords (m.map fun b => encode (.absorb b)) s = .next u) :
    u.responses = [] ∧ u.state.ERR = s.ERR ∧ u.state.ECODE = s.ECODE ∧ u.state.rspByte = s.rspByte := by
  induction m generalizing s u with
  | nil => cases e; simp
  | cons b m ih =>
    obtain ⟨t, v, ht, hv, rfl⟩ := runWords_cons_cases e
    rw [acceptWord_legal (decode_encode _)] at ht
    obtain ⟨hopen, hresp, herr, hcode, hbyte⟩ := execAbsorb_open_frame hf ht
    simpa [hresp, herr, hcode, hbyte] using ih hopen hv

/-- Settles O49: the absorption by `HasAbsorbed.words` from the empty string, the rest by `runWords_absorbs_frame`. -/
theorem absorbedStringIsTheSpongeAbsorption : Obligations.AbsorbedStringIsTheSpongeAbsorption := by
  intro s ws hf ho hws
  obtain ⟨u, hu, ⟨hopen, hoffset, hS⟩, hcycles⟩ := (hasAbsorbed_nil hf ho).words hws
  refine ⟨u, hu, hoffset, hS, hopen, hcycles, ?_⟩
  rintro m rfl
  exact ⟨absorbedBytes_absorbs m, runWords_absorbs_frame hf hu⟩

/-! ### `HASH m` (R131) -/

/-- The padding fills the last block (R133). -/
theorem length_padding (n : Nat) : n % 136 + (padding n).length = 136 := by
  unfold padding
  split
  · next hlast => rw [hlast]; rfl
  · simp only [List.length_cons, List.length_append, List.length_replicate, List.length_nil]
    omega

/-- FINAL's two XORs are the padding XORed in as a string (R125, R126). -/
theorem padBlock_eq {n : Nat} (h : s.offset.toNat = n % 136) :
    padBlock s = some (xorBytes s.S (n % 136) (padding n)) := by
  have hpad : padBlock s = some (xorByteAt (xorByteAt s.S (n % 136) 0x06) 135 0x80) := by
    rw [padBlock, absorbPosition, h, memXor_eq _ (by omega), Option.bind_some]
    exact memXor_eq _ (by decide) _
  rw [hpad, padding]
  split
  · next hlast => rw [hlast, xorByteAt_xorByteAt]; rfl
  · next hlast =>
    have htrailer : n % 136 + 1 + (134 - n % 136) = 135 := by omega
    rw [xorBytes_cons, xorBytes_append, xorBytes_zeros, List.length_replicate, htrailer, xorBytes_cons, xorBytes_nil]

/-- The message with its padding is absorbed as whole blocks. -/
theorem keccakF_padded (A : Lanes) (m : List Byte) :
    keccakF (xorBytes (spongeAbsorb A m) (m.length % 136) (padding m.length)) =
      absorbBlocks A (m ++ padding m.length) ((m ++ padding m.length).length / 136) := by
  have hpad := length_padding m.length
  rw [← spongeAbsorb_append_of_eq A hpad, spongeAbsorb_of_whole_blocks A (by rw [List.length_append]; omega)]

/-- FINAL absorbs the padded message (R125, R131). -/
theorem HasAbsorbed.final (h : HasAbsorbed A m s) :
    ∃ t, exec .final s = .next t ∧
      t.S = absorbBlocks A (m ++ padding m.length) ((m ++ padding m.length).length / 136) ∧
      t.FIN = true ∧ t.ERR = s.ERR ∧ t.offset = s.offset ∧ t.response = none := by
  have hpad := padBlock_eq h.offset_eq
  rw [h.state_eq] at hpad
  exact ⟨_, finalWith_open permute h.open_context hpad, keccakF_padded A m, rfl, rfl, rfl, rfl⟩

/-- RDIGs of a finalized context squeeze its bytes, one in a cycle (R127). -/
theorem runWords_rdigs (is : List (BitVec 5)) (hf : s.FIN = true) :
    ∃ u, runWords (is.map fun i => encode (.rdig i)) s = .next u ∧
      u.responses = is.map (fun i => digestByte i s) ∧ u.cycles = is.length ∧
      u.state.ERR = s.ERR ∧ u.state.FIN = true ∧ u.state.offset = s.offset := by
  induction is generalizing s with
  | nil => exact ⟨_, rfl, rfl, rfl, rfl, hf, rfl⟩
  | cons i is ih =>
    obtain ⟨u, hu, hresp, hcycles, hframe⟩ := ih (s := respond (digestByte i s) s) hf
    have hword : acceptWord (encode (.rdig i)) s = .next (respond (digestByte i s) s) :=
      (acceptWord_legal (decode_encode _)).trans (execRdig_finalized i hf)
    refine ⟨_, runWords_cons hword hu, ?_, ?_, hframe⟩
    · rw [response_respond, hresp]; rfl
    · rw [commandCycles_encode, hcycles, List.length_cons, Nat.add_comm]; rfl

/-- The squeezed bytes are those RDIG 0 to RDIG 31 read (R7, R127). -/
theorem squeeze_eq (s : State) :
    squeeze s.S = ((List.range 32).map (BitVec.ofNat 5)).map fun i => digestByte i s := by
  rw [squeeze, List.map_map]
  refine List.map_congr_left fun k hk => ?_
  have hlt : k < 32 := List.mem_range.1 hk
  have hlane : k / 8 < 25 := by omega
  simp [digestByte, digestPosition, Nat.mod_eq_of_lt hlt, hlane]

/-- The words of `HASH m` by its bytes (R68). -/
theorem words_hash (m : List Byte) :
    (Line.hash (m.map BitVec.toNat)).words =
      [encode .init] ++ (m.map fun b => encode (.absorb b)) ++ [encode .final] ++
        ((List.range 32).map (BitVec.ofNat 5)).map fun i => encode (.rdig i) := by
  simp [Line.words, digestWords, absorbWord, Function.comp_def]

/-- A session of one command (R48). -/
theorem runWords_command {i : Instr} (h : exec i s = .next t) :
    runWords [encode i] s = .next ⟨t, t.response.toList, commandCycles (encode i) s⟩ := by
  simpa using runWords_cons ((acceptWord_legal (decode_encode i)).trans h) (runWords_nil (s := t))

/-- Settles O51: INIT, the absorption of the message, FINAL's of its padding, and the 32 bytes squeezed. -/
theorem hashProgramReturnsSha3Digest : Obligations.HashProgramReturnsSha3Digest := by
  intro s m
  have hinit : runWords [encode .init] s = .next ⟨noResponse (newContext s), [], 1⟩ := runWords_command rfl
  obtain ⟨u, hu, habs, hcycles⟩ :=
    (hasAbsorbed_nil (s := noResponse (newContext s)) rfl rfl).words (ws := m.map fun b => encode (.absorb b))
      (fun w hw => by obtain ⟨b, _, rfl⟩ := List.mem_map.1 hw; exact encode_absorb_ne b)
  rw [List.nil_append, absorbedBytes_absorbs] at habs hcycles
  obtain ⟨hresp, herr, _⟩ := runWords_absorbs_frame rfl hu
  obtain ⟨t, ht, hS, hfin, herr', ho, hresp'⟩ := habs.final
  obtain ⟨v, hv, hdigest, hcycles', herr'', hfin', ho'⟩ :=
    runWords_rdigs ((List.range 32).map (BitVec.ofNat 5)) hfin
  rw [words_hash]
  have hrun := runWords_append (runWords_append (runWords_append hinit hu) (runWords_command ht)) hv
  refine ⟨_, hrun, ?_, ?_, hfin', ?_, ?_⟩
  · simp only [hresp, hresp', hdigest, ← squeeze_eq, hS]
    rfl
  · rw [herr'', herr', herr]; rfl
  · rw [ho', ho, habs.offset_eq]
  · simp only [List.length_nil, List.length_map, List.length_range] at hcycles hcycles'
    simp only [commandCycles_final habs.open_context, hcycles']
    omega

end Sys2Proof.Machine

/-! PROOFS. The statements of 60_exceptions.md: which error each word records and that it does nothing else (R150 to R154), that the first error is kept (R152, R156), that a recorded error blocks nothing (R155), and the idle engine (R166). -/

namespace Sys2Proof.Machine

variable {s t : State}

/-! ### The idle engine (R166, R177, R182) -/

theorem step_of_no_move (hi : s.inbox = []) : step s = hostMove .idle s := by
  simp only [step, hi]

theorem step_of_move {m : HostMove} {rest : List HostMove} (hi : s.inbox = m :: rest) :
    step s = hostMove m { s with inbox := rest } := by
  simp only [step, hi]

/-- With no permutation in progress, only `rsp_valid` ends (R177). -/
theorem hostMove_idle_of_ready (hb : s.busy = false) : hostMove .idle s = .next { s with rspValid := false } := by
  rw [hostMove, finishPermutation_of_ready hb]
  rfl

/-- A permutation in progress is completed (R182). -/
theorem hostMove_idle_of_busy (hb : s.busy = true) :
    ∃ t, hostMove .idle s = .next t ∧
      EqualButScratch t
        { s with S := ((List.finRange 24).drop s.ir.val).foldl roundFn s.S, rspValid := false, busy := false, ir := 0 } :=
  ⟨_, rfl, by rw [finishPermutation_of_busy hb]; rfl⟩

/-- An edge at which a ready engine is given no word. -/
theorem tick_of_no_command {p : PortsIn} (hb : s.busy = false) (hrst : p.rst = false) (hv : p.cmdValid = false) :
    tick p s = .next (idleCycle s) := by
  simp [tick, accepts, hb, hrst, hv]

/-- Settles O12, by the idle move: a step makes it where the host makes none. -/
theorem idleEngineHoldsItsState : Obligations.IdleEngineHoldsItsState := by
  refine ⟨fun s hb hi => ?_, fun s rest hb hi => ?_, fun s hb hi => ?_, fun s rest hb hi => ?_,
    fun p s hb hrst hv => ⟨by simp [portsOut, hb, hrst], tick_of_no_command hb hrst hv⟩⟩
  · rw [step_of_no_move hi, hostMove_idle_of_ready hb]
  · rw [step_of_move hi, hostMove_idle_of_ready (s := { s with inbox := rest }) hb]
  · rw [step_of_no_move hi]; exact hostMove_idle_of_busy hb
  · rw [step_of_move hi]; exact hostMove_idle_of_busy (s := { s with inbox := rest }) hb

/-! ### The error each command raises (R151)

A command is run whole or, at the edge that accepts it, with its permutation only started; what it does to the error
record is the same, since neither way of running the permutation writes the record. -/

/-- The meaning of a command over the way its permutation is run (R44, R176). -/
def execWith (perm : State → State) (i : Instr) (s : State) : Result :=
  match i with
  | .absorb b => absorbWith perm b s
  | .final => finalWith perm s
  | .nop => execNop s
  | .init => execInit s
  | .rdig k => execRdig k s
  | .rstat => execRstat s
  | .roff => execRoff s

theorem exec_eq_execWith (i : Instr) (s : State) : exec i s = execWith permute i s := by cases i <;> rfl

theorem execEdge_eq_execWith (i : Instr) (s : State) : execEdge i s = execWith startPermutation i s := by
  cases i <;> rfl

/-- The way `perm` of running a permutation leaves the error record as it is. -/
def KeepsRecord (perm : State → State) : Prop := ∀ q, (perm q).ERR = q.ERR ∧ (perm q).ECODE = q.ECODE

theorem keepsRecord_permute : KeepsRecord permute := fun _ => ⟨rfl, rfl⟩

theorem keepsRecord_startPermutation : KeepsRecord startPermutation := fun _ => ⟨rfl, rfl⟩

/-- The error a command raises, by whether the context is finalized (R151, codes 1 to 3). -/
def raisedBy (fin : Bool) : Instr → Option ErrorName
  | .absorb _ => if fin then some .absorbAfterFinal else none
  | .final => if fin then some .finalAfterFinal else none
  | .rdig _ => if fin then none else some .digestBeforeFinal
  | .nop | .init | .rstat | .roff => none

/-- What a command does where it raises the error `r`: RDIG alone responds (R127, R154). -/
def raiseFrom (i : Instr) (r : ErrorName) (s : State) : State :=
  match i with
  | .rdig _ => respond 0x00 (raiseError r s)
  | .nop | .init | .absorb _ | .final | .rstat | .roff => raiseError r (noResponse s)

@[simp] theorem raiseFrom_ERR (i : Instr) (r : ErrorName) : (raiseFrom i r s).ERR = true := by
  cases i <;> simp [raiseFrom]

@[simp] theorem raiseFrom_ECODE (i : Instr) (r : ErrorName) :
    (raiseFrom i r s).ECODE = if s.ERR then s.ECODE else r.code := by
  cases i with
  | rdig k => simp [raiseFrom]
  | nop | init | absorb | final | rstat | roff => rw [raiseFrom, raiseError_noResponse]

/-- What a command does about errors: it raises its error and no more, or keeps the record, or is INIT (R150 to R156). -/
theorem execWith_error_cases {perm : State → State} (hperm : KeepsRecord perm) {i : Instr}
    (e : execWith perm i s = .next t) :
    (∃ r, raisedBy s.FIN i = some r ∧ t = raiseFrom i r s) ∨
    (raisedBy s.FIN i = none ∧ t.ERR = s.ERR ∧ t.ECODE = s.ECODE) ∨
    (i = .init ∧ t.ERR = false ∧ t.ECODE = 0) := by
  cases i with
  | init => cases e; exact .inr (.inr ⟨rfl, rfl, rfl⟩)
  | nop | rstat | roff => cases e; exact .inr (.inl ⟨rfl, rfl, rfl⟩)
  | absorb b =>
    obtain ⟨hf, rfl⟩ | ⟨hf, A, _, ⟨_, rfl⟩ | ⟨_, rfl⟩⟩ := absorbWith_cases e
    · exact .inl ⟨_, by rw [raisedBy, if_pos hf], rfl⟩
    · exact .inr (.inl ⟨by simp [raisedBy, hf], hperm _⟩)
    · exact .inr (.inl ⟨by simp [raisedBy, hf], rfl, rfl⟩)
  | final =>
    obtain ⟨hf, rfl⟩ | ⟨hf, A, _, rfl⟩ := finalWith_cases e
    · exact .inl ⟨_, by rw [raisedBy, if_pos hf], rfl⟩
    · exact .inr (.inl ⟨by simp [raisedBy, hf], hperm _⟩)
  | rdig k =>
    obtain ⟨hf, rfl⟩ | ⟨hf, rfl⟩ := execRdig_cases e
    · exact .inr (.inl ⟨by rw [raisedBy, if_pos hf], rfl, rfl⟩)
    · exact .inl ⟨_, by simp [raisedBy, hf], rfl⟩

/-! ### The codes of the table (R151, R153) -/

/-- The opcode of each command (R62). -/
def opcodeOf : Instr → Nat
  | .nop => 0
  | .init => 1
  | .absorb _ => 2
  | .final => 3
  | .rdig _ => 4
  | .rstat => 5
  | .roff => 6

theorem toNat_encode_div (i : Instr) : (encode i).toNat / 4096 = opcodeOf i := by
  cases i with
  | absorb b => rw [toNat_encode_absorb, opcodeOf]; omega
  | rdig k => rw [toNat_encode_rdig, opcodeOf]; omega
  | nop | init | final | rstat | roff => rfl

theorem code_ne_zero (r : ErrorName) : r.code ≠ 0 := by cases r <;> decide

/-- The code of a command's error, 0 for none, by its opcode. -/
theorem code_raisedBy (fin : Bool) (i : Instr) :
    (raisedBy fin i).elim 0 ErrorName.code =
      if opcodeOf i = 2 ∧ fin = true then 1
      else if opcodeOf i = 3 ∧ fin = true then 2
      else if opcodeOf i = 4 ∧ fin = false then 3
      else 0 := by
  cases i <;> cases fin <;> rfl

/-- The record a command leaves where there was no error. -/
theorem exec_record_of_clean {i : Instr} (herr : s.ERR = false) (hcode : s.ECODE = 0) (e : exec i s = .next t) :
    t.ECODE = (raisedBy s.FIN i).elim 0 ErrorName.code ∧ (t.ERR = true ↔ t.ECODE ≠ 0) := by
  obtain ⟨r, hr, rfl⟩ | ⟨hr, herr', hcode'⟩ | ⟨rfl, herr', hcode'⟩ :=
    execWith_error_cases keepsRecord_permute (exec_eq_execWith i s ▸ e)
  · exact ⟨by simp [hr, herr], by simpa [herr] using code_ne_zero r⟩
  · simp [hr, herr', hcode', herr, hcode]
  · simp [raisedBy, herr', hcode']

/-- A word that decodes to no command is illegal (R65). -/
theorem legal_of_decode_error {w : CommandWord} {r : IllegalReason} (h : decode w = .error r) : legal w = false := by
  obtain ⟨_, i, hi⟩ | ⟨hlegal, _⟩ := decoderAnswersEveryWord w
  · simp [h] at hi
  · exact hlegal

/-- Settles O23, by `exec_record_of_clean` for a legal word. -/
theorem errorCodesFollowTheTable : Obligations.ErrorCodesFollowTheTable := by
  intro s t w herr hcode e
  obtain ⟨i, hd, hi⟩ | ⟨r, hd, ht⟩ := acceptWord_cases e
  · obtain rfl := encode_of_decode hd
    obtain ⟨hcode', hiff⟩ := exec_record_of_clean herr hcode hi.symm
    refine ⟨?_, hiff⟩
    rw [hcode', code_raisedBy, toNat_encode_div, legal_encode, if_neg (by decide : ¬ true = false)]
  · cases ht
    simp [legal_of_decode_error hd, acceptIllegal, herr, ErrorName.code]

/-! ### Errors are precise (R150, R154) -/

/-- `raise Error` writes the record alone (R152). -/
theorem raiseError_eq (r : ErrorName) (s : State) :
    raiseError r s = { s with ERR := true, ECODE := (raiseError r s).ECODE } := by
  cases herr : s.ERR with
  | true => rw [raiseError_of_error r herr, ← herr]
  | false => rw [raiseError_of_clean r herr]

/-- A command that raises an error leaves everything but the record and the response (R154). -/
theorem raiseFrom_frame (i : Instr) (r : ErrorName) (s : State) :
    raiseFrom i r s =
      { s with ERR := true, ECODE := (raiseFrom i r s).ECODE, rspValid := (raiseFrom i r s).rspValid,
               rspByte := if opcodeOf i = 4 then 0x00 else s.rspByte } := by
  cases i with
  | rdig k => exact congrArg (respond 0x00) (raiseError_eq r s)
  | nop | init | absorb | final | rstat | roff => simp only [raiseFrom, raiseError_noResponse]; rfl

/-- Settles O24, by `raiseFrom_frame`: from no error, only a command that raises one leaves one. -/
theorem errorsArePrecise : Obligations.ErrorsArePrecise := by
  intro s t w herr e hrec
  obtain ⟨i, hd, hi⟩ | ⟨r, hd, ht⟩ := acceptWord_cases e
  · obtain rfl := encode_of_decode hd
    obtain ⟨r, _, rfl⟩ | ⟨_, herr', _⟩ | ⟨_, herr', _⟩ :=
      execWith_error_cases keepsRecord_permute (exec_eq_execWith i s ▸ hi.symm)
    · simpa only [legal_encode, true_and, toNat_encode_div] using raiseFrom_frame i r s
    · simp [herr', herr] at hrec
    · simp [herr'] at hrec
  · cases ht
    simp only [acceptIllegal, raiseError_noResponse, legal_of_decode_error hd]
    rfl

/-! ### The first error is kept (R152, R156) -/

/-- A command other than INIT keeps a recorded error, both run whole and at its first edge. -/
theorem execWith_keeps_first_error {perm : State → State} (hperm : KeepsRecord perm) {i : Instr} (hi : i ≠ .init)
    (herr : s.ERR = true) (e : execWith perm i s = .next t) : t.ERR = true ∧ t.ECODE = s.ECODE := by
  obtain ⟨r, _, rfl⟩ | ⟨_, herr', hcode⟩ | ⟨hinit, _⟩ := execWith_error_cases hperm e
  · simp [herr]
  · exact ⟨herr'.trans herr, hcode⟩
  · exact absurd hinit hi

theorem acceptIllegal_keeps_first_error (herr : s.ERR = true) :
    (acceptIllegal s).ERR = true ∧ (acceptIllegal s).ECODE = s.ECODE := by
  simp [acceptIllegal, herr]

theorem ne_init_of_decode {w : CommandWord} {i : Instr} (hd : decode w = .ok i) (hw : w ≠ 0x1000) : i ≠ .init :=
  fun h => hw (eq_of_decode_init (h ▸ hd))

theorem acceptWord_keeps_first_error {w : CommandWord} (herr : s.ERR = true) (hw : w ≠ 0x1000)
    (e : acceptWord w s = .next t) : t.ERR = true ∧ t.ECODE = s.ECODE := by
  obtain ⟨i, hd, hi⟩ | ⟨_, _, ht⟩ := acceptWord_cases e
  · exact execWith_keeps_first_error keepsRecord_permute (ne_init_of_decode hd hw) herr
      (exec_eq_execWith i s ▸ hi.symm)
  · cases ht; exact acceptIllegal_keeps_first_error herr

theorem acceptEdge_keeps_first_error {w : CommandWord} (herr : s.ERR = true) (hw : w ≠ 0x1000)
    (e : acceptEdge w s = .next t) : t.ERR = true ∧ t.ECODE = s.ECODE := by
  unfold acceptEdge at e
  split at e
  · next i hd =>
    exact execWith_keeps_first_error keepsRecord_startPermutation (ne_init_of_decode hd hw) herr
      (execEdge_eq_execWith i s ▸ e)
  · cases e; exact acceptIllegal_keeps_first_error herr

theorem hostMove_keeps_first_error {m : HostMove} (herr : s.ERR = true) (hm : m ≠ .command 0x1000)
    (hreset : m ≠ .reset) (e : hostMove m s = .next t) : t.ERR = true ∧ t.ECODE = s.ECODE := by
  cases m with
  | reset => exact absurd rfl hreset
  | command w =>
    have hw : w ≠ 0x1000 := fun h => hm (congrArg HostMove.command h)
    simpa using acceptWord_keeps_first_error (s := finishPermutation s) (by simpa using herr) hw e
  | idle => cases e; simp [herr]

theorem tick_keeps_first_error {p : PortsIn} (herr : s.ERR = true) (hrst : p.rst = false)
    (hinit : ¬(accepts p s = true ∧ p.cmdWord = 0x1000)) (e : tick p s = .next t) :
    t.ERR = true ∧ t.ECODE = s.ECODE := by
  obtain ⟨hrst', _⟩ | ⟨_, _, ht⟩ | ⟨_, _, hacc, ht⟩ | ⟨_, _, _, ht⟩ := tick_cases p s
  · simp [hrst] at hrst'
  · cases ht.symm.trans e; exact ⟨herr, rfl⟩
  · exact acceptEdge_keeps_first_error herr (fun hw => hinit ⟨hacc, hw⟩) (ht.symm.trans e)
  · cases ht.symm.trans e; exact ⟨herr, rfl⟩

/-- Settles O25: the error is kept by `execWith_keeps_first_error`, and INIT and reset write a clear record. -/
theorem firstErrorIsKeptUntilInit : Obligations.FirstErrorIsKeptUntilInit :=
  ⟨fun _ _ _ => acceptWord_keeps_first_error, fun _ _ _ => hostMove_keeps_first_error,
    fun s => ⟨finishPermutation_ERR s, finishPermutation_ECODE s⟩, fun _ _ _ => tick_keeps_first_error,
    fun _ => ⟨_, acceptWord_legal (decode_encode .init), rfl, rfl⟩, fun _ => ⟨_, rfl, rfl, rfl⟩,
    fun _ _ hrst => ⟨_, if_pos hrst, rfl, rfl⟩⟩

/-! ### A recorded error blocks nothing (R155) -/

/-- Two states equal in everything but the error record. -/
def EqualButRecord (s t : State) : Prop := { s with ERR := t.ERR, ECODE := t.ECODE } = t

theorem equalButRecord_raiseError (r : ErrorName) (h : EqualButRecord s t) :
    EqualButRecord (raiseError r s) (raiseError r t) := by
  rw [raiseError_eq r s, raiseError_eq r t]
  exact congrArg (fun q : State => { q with ERR := true, ECODE := (raiseError r t).ECODE }) h

theorem EqualButRecord.context (h : EqualButRecord s t) :
    s.S = t.S ∧ s.offset = t.offset ∧ s.FIN = t.FIN ∧ s.rspValid = t.rspValid ∧ s.rspByte = t.rspByte := by
  rw [← (h : _ = t)]
  exact ⟨rfl, rfl, rfl, rfl, rfl⟩

theorem equalButRecord_clearError (s : State) : EqualButRecord (clearError s) s := rfl

/-- Every command but RSTAT, which reads the record, runs as it does with no error recorded. -/
theorem exec_clearError {i : Instr} (hi : i ≠ .rstat) (e : exec i s = .next t) :
    ∃ u, exec i (clearError s) = .next u ∧ EqualButRecord u t := by
  cases i with
  | rstat => exact absurd rfl hi
  | nop | init | roff => cases e; exact ⟨_, rfl, rfl⟩
  | absorb b =>
    obtain ⟨hf, rfl⟩ | ⟨hf, A, hA, ⟨ho, rfl⟩ | ⟨ho, rfl⟩⟩ := absorbWith_cases e
    · exact ⟨_, absorbWith_finalized (s := clearError s) permute b hf,
        equalButRecord_raiseError _ (equalButRecord_clearError (noResponse s))⟩
    · exact ⟨_, absorbWith_full (s := clearError s) permute hf hA ho, rfl⟩
    · exact ⟨_, absorbWith_partial (s := clearError s) permute hf hA ho, rfl⟩
  | final =>
    obtain ⟨hf, rfl⟩ | ⟨hf, A, hA, rfl⟩ := finalWith_cases e
    · exact ⟨_, finalWith_finalized (s := clearError s) permute hf,
        equalButRecord_raiseError _ (equalButRecord_clearError (noResponse s))⟩
    · exact ⟨_, finalWith_open (s := clearError s) permute hf hA, rfl⟩
  | rdig k =>
    obtain ⟨hf, rfl⟩ | ⟨hf, rfl⟩ := execRdig_cases e
    · exact ⟨_, execRdig_finalized (s := clearError s) k hf, rfl⟩
    · exact ⟨_, execRdig_open (s := clearError s) k hf,
        congrArg (respond 0x00) (equalButRecord_raiseError .digestBeforeFinal (equalButRecord_clearError s))⟩

/-- The same of every word but RSTAT's. -/
theorem acceptWord_clearError {w : CommandWord} (hw : w ≠ 0x5000) (e : acceptWord w s = .next t) :
    ∃ u, acceptWord w (clearError s) = .next u ∧ EqualButRecord u t := by
  obtain ⟨i, hd, hi⟩ | ⟨_, hd, ht⟩ := acceptWord_cases e
  · have hne : i ≠ .rstat := by rintro rfl; exact hw (encode_of_decode hd).symm
    rw [acceptWord_legal hd]
    exact exec_clearError hne hi.symm
  · cases ht
    exact ⟨_, acceptWord_illegal hd, equalButRecord_raiseError _ (equalButRecord_clearError (noResponse s))⟩

/-- Settles O26, by `acceptWord_clearError`; RSTAT's word differs in its response byte alone. -/
theorem recordedErrorDoesNotBlock : Obligations.RecordedErrorDoesNotBlock := by
  intro s t w e
  by_cases hw : w = 0x5000
  · subst hw
    have hd : decode 0x5000 = .ok .rstat := decode_encode .rstat
    cases (acceptWord_legal hd).symm.trans e
    exact ⟨_, acceptWord_legal hd, rfl, rfl, rfl, rfl, fun h => absurd rfl h⟩
  · obtain ⟨u, hu, heq⟩ := acceptWord_clearError hw e
    obtain ⟨hS, ho, hf, hvalid, hbyte⟩ := heq.context
    exact ⟨u, hu, hS, ho, hf, hvalid, fun _ => hbyte⟩

end Sys2Proof.Machine

/-! PROOFS. The statements of 70_reset_and_hazards.md: reset at an edge and as a step (R171, R181), the busy engine (R176), the one-cycle response (R177), the cycles of every word (R180), and constant time (R179). -/

namespace Sys2Proof.Machine

variable {s t : State}

/-! ### Reset (R171, R181) -/

/-- `rst = 1` shuts the command port (R171). -/
theorem accepts_of_rst {p : PortsIn} (hrst : p.rst = true) : accepts p s = false := by
  simp [accepts, hrst]

theorem tick_of_rst {p : PortsIn} (hrst : p.rst = true) : tick p s = .next (resetEngine s) := if_pos hrst

/-- Reset leaves the architectural state that INIT does, but for `rsp_byte`, which INIT keeps (R122, R171). -/
theorem sameArchitecture_resetEngine (s : State) :
    SameArchitecture (resetEngine s) { noResponse (newContext s) with rspByte := 0x00 } := by
  simp [SameArchitecture]

/-- Settles O10, by `tick_of_rst`, the fields of `resetEngine` and `sameArchitecture_resetEngine`. -/
theorem resetEdgeGivesTheResetValues : Obligations.ResetEdgeGivesTheResetValues := by
  intro p s hrst
  refine ⟨by simp [portsOut, hrst], accepts_of_rst hrst, resetEngine s, tick_of_rst hrst, ?_⟩
  have hinit : ∃ u, exec .init s = .next u ∧ SameArchitecture (resetEngine s) { u with rspByte := 0x00 } :=
    ⟨_, rfl, sameArchitecture_resetEngine s⟩
  exact ⟨rfl, rfl, rfl, rfl, rfl, rfl, rfl, rfl, rfl, hinit⟩

/-- The engine after reset is the reset state, but for the scratch lanes (R171, R172). -/
theorem equalButScratch_resetEngine (s : State) :
    EqualButScratch (resetEngine s) { State.reset with inbox := s.inbox, draws := (resetEngine s).draws } := rfl

/-- Settles O11: the reset move is `resetEngine` of the engine with its other moves to come. -/
theorem resetStepGivesTheResetState : Obligations.ResetStepGivesTheResetState := by
  intro s rest hi
  exact ⟨_, step_of_move hi, equalButScratch_resetEngine { s with inbox := rest }⟩

/-! ### The busy engine (R175, R176) -/

/-- While a permutation is in progress nothing is accepted (R176). -/
theorem accepts_of_busy (p : PortsIn) (hb : s.busy = true) : accepts p s = false := by
  simp [accepts, portsOut, hb]

/-- An edge without a reset while a permutation is in progress is one round of it (R176). -/
theorem tick_of_busy {p : PortsIn} (hb : s.busy = true) (hrst : p.rst = false) : tick p s = .next (roundCycle s) := by
  simp [tick, hb, hrst]

/-- Settles O44: the edge is a round by `tick_of_busy`, whatever the command port shows. -/
theorem busyEngineIgnoresTheCommandPort : Obligations.BusyEngineIgnoresTheCommandPort := by
  intro s p q hb hp hq
  exact ⟨by simp [portsOut, hb], accepts_of_busy p hb, (tick_of_busy hb hp).trans (tick_of_busy hb hq).symm⟩

/-! ### The response (R29, R177) -/

/-- A command's first edge responds for the opcodes 4 to 6 alone, and keeps the response register otherwise. -/
theorem execEdge_response {i : Instr} (e : execEdge i s = .next t) :
    (t.rspValid = true ↔ opcodeOf i = 4 ∨ opcodeOf i = 5 ∨ opcodeOf i = 6) ∧
    (t.rspValid = false → t.rspByte = s.rspByte) := by
  cases i with
  | nop | init | rstat | roff => cases e; simp [opcodeOf]
  | absorb b =>
    obtain ⟨_, rfl⟩ | ⟨_, A, _, ⟨_, rfl⟩ | ⟨_, rfl⟩⟩ := absorbWith_cases e <;> simp [opcodeOf]
  | final => obtain ⟨_, rfl⟩ | ⟨_, A, _, rfl⟩ := finalWith_cases e <;> simp [opcodeOf]
  | rdig k => obtain ⟨_, rfl⟩ | ⟨_, rfl⟩ := execRdig_cases e <;> simp [opcodeOf]

/-- The same of a word: an illegal one gives no response (R64). -/
theorem acceptEdge_response {w : CommandWord} (e : acceptEdge w s = .next t) :
    (t.rspValid = true ↔
      legal w = true ∧ (w.toNat / 4096 = 4 ∨ w.toNat / 4096 = 5 ∨ w.toNat / 4096 = 6)) ∧
    (t.rspValid = false → t.rspByte = s.rspByte) := by
  unfold acceptEdge at e
  split at e
  · next i hd =>
    obtain rfl := encode_of_decode hd
    simpa only [legal_encode, toNat_encode_div, true_and] using execEdge_response e
  · next r hd =>
    cases e
    simp [acceptIllegal, legal_of_decode_error hd]

/-- Settles O47: `acceptEdge_response` where a word is accepted; a round and an idle cycle give no response. -/
theorem responseIsValidForOneCycle : Obligations.ResponseIsValidForOneCycle := by
  refine ⟨fun s t p hacc e => ?_, fun s t p hacc hrst e => ?_⟩
  · obtain ⟨hrst, _⟩ | ⟨_, hb, _⟩ | ⟨_, _, _, ht⟩ | ⟨_, _, hno, _⟩ := tick_cases p s
    · simp [accepts_of_rst hrst] at hacc
    · simp [accepts_of_busy p hb] at hacc
    · exact acceptEdge_response (ht.symm.trans e)
    · simp [hno] at hacc
  · obtain ⟨hrst', _⟩ | ⟨_, _, ht⟩ | ⟨_, _, hacc', _⟩ | ⟨_, _, _, ht⟩ := tick_cases p s
    · simp [hrst] at hrst'
    · cases ht.symm.trans e; exact ⟨rfl, rfl⟩
    · simp [hacc] at hacc'
    · cases ht.symm.trans e; exact ⟨rfl, rfl⟩

/-! ### The timing table (R180) -/

/-- Which commands permute, by their opcodes (R176). -/
theorem triggersPermutation_iff (i : Instr) (s : State) : triggersPermutation i s = true ↔
    s.FIN = false ∧ (opcodeOf i = 3 ∨ (opcodeOf i = 2 ∧ s.offset = 135)) := by
  cases i <;> simp [triggersPermutation, opcodeOf]

/-- Settles O45, by `triggersPermutation_iff` for a legal word. -/
theorem cyclesFollowTheTimingTable : Obligations.CyclesFollowTheTimingTable := by
  intro w s
  cases hd : decode w with
  | ok i =>
    obtain rfl := encode_of_decode hd
    simp only [commandCycles_encode, triggersPermutation_iff, legal_encode, toNat_encode_div, true_and]
  | error r => simp [commandCycles, hd, legal_of_decode_error hd]

/-! ### Constant time (R103, R179) -/

/-- The cycles depend on the opcode, the legality, `FIN` and `offset` alone. -/
theorem commandCycles_congr {w v : CommandWord} (hop : opField w = opField v) (hlegal : legal w = legal v)
    (hf : s.FIN = t.FIN) (ho : s.offset = t.offset) : commandCycles w s = commandCycles v t := by
  have hdiv : w.toNat / 4096 = v.toNat / 4096 :=
    ((opField_eq_iff w _).1 hop).trans ((opField_eq_iff v _).1 rfl).symm
  rw [cyclesFollowTheTimingTable, cyclesFollowTheTimingTable, hdiv, hlegal, hf, ho]

/-- At every cycle of a word up to its last, `busy` and the round index are functions of how many cycles have passed
and how many the word takes. -/
theorem busy_ir_of_ticks {p : PortsIn} {ps : List PortsIn} (hs : Ready s) (hrst : p.rst = false)
    (hv : p.cmdValid = true) (hps : ∀ r ∈ ps, r.rst = false) (hlen : ps.length < commandCycles p.cmdWord s)
    (e : ticks (p :: ps) s = .next t) :
    t.busy = decide (ps.length + 1 < commandCycles p.cmdWord s) ∧ t.ir.val = ps.length % 24 := by
  have htick := tick_of_command hs.2 hrst hv
  obtain ⟨u, hu, hready⟩ := acceptWord_next_ready p.cmdWord hs
  obtain ⟨hone, hedge⟩ | ⟨hperm, q, _, hedge, _⟩ := acceptEdge_cases hu
  · obtain rfl : ps = [] := List.eq_nil_of_length_eq_zero (by omega)
    cases (ticks_cons [] (htick.trans hedge)).symm.trans e
    obtain ⟨⟨_, _, _, hir⟩, hbusy⟩ := hready
    simp [hone, hbusy, hir hbusy]
  · have hstart := (ticks_cons ps (htick.trans hedge)).symm.trans e
    have hbusy : (startPermutation q).busy = true := rfl
    have hir : (startPermutation q).ir.val = 0 := rfl
    by_cases hlast : ps.length = 24
    · obtain ⟨v, hticks, heq⟩ := ticks_finish hbusy hps (by omega)
      cases hticks.symm.trans hstart
      have hrest : t.busy = false := congrArg State.busy heq
      have hround : t.ir = 0 := congrArg State.ir heq
      simp [hlast, hperm, hrest, hround]
    · obtain ⟨v, hticks, hrunning, hround⟩ := ticks_busy hbusy hps (by omega)
      cases hticks.symm.trans hstart
      rw [hrunning, hround, hir, hperm]
      exact ⟨(decide_eq_true (by omega)).symm, by omega⟩

/-- Settles O46: `busy_ir_of_ticks` for both engines, whose words take the same cycles by `commandCycles_congr`. -/
theorem timingIsIndependentOfData : Obligations.TimingIsIndependentOfData := by
  intro s t a b p q ps qs hs ht hf ho hp hq hpv hqv hop hlegal hps hqs hlen hin ea eb
  have hcycles : commandCycles p.cmdWord s = commandCycles q.cmdWord t := commandCycles_congr hop hlegal hf ho
  obtain ⟨habusy, hair⟩ := busy_ir_of_ticks hs hp hpv hps hin ea
  obtain ⟨hbbusy, hbir⟩ := busy_ir_of_ticks ht hq hqv hqs (by omega) eb
  exact ⟨by rw [habusy, hbbusy, hlen, hcycles], Fin.ext (by rw [hair, hbir, hlen])⟩

end Sys2Proof.Machine
